-- ==== Sys2Proof/Word.lean ====
section
/-! DEFINITION. The word, the byte and the register index of the minilc3 core. -/

namespace Sys2Proof

/-- A 16-bit word: every register, memory cell, address and instruction word (R12). Its `+`, `-`, `&&&` and
`~~~` are the spec's operators, modulo 65536 (R13). -/
abbrev Word := BitVec 16

/-- An 8-bit byte: what the console moves (R15, R152, R153). -/
abbrev Byte := BitVec 8

/-- The index of a general register, 0 to 7; no index is out of range (R21). -/
abbrev Reg := Fin 8

end Sys2Proof
end

