-- ==== Sys2Proof/Syntax.lean ====
section
/-! DEFINITION. The instruction set as syntax: the sixteen opcodes, the six trap services, the five kinds of
instruction error, and `Instr`, one constructor per row of spec/opcode_table.json. Immediates and offsets are
kept as the raw field of the word; they are sign-extended where they are used (R80). -/

namespace Sys2Proof

/-- The closed enumeration of the sixteen opcode values, RTI and the reserved one among them (R66, R67). -/
inductive Opcode where
  | br | add | ld | st | jsr | and | ldr | str | rti | not | ldi | sti | jmp | reserved | lea | trap
  deriving DecidableEq, Repr

/-- The six trap services built into the core (R150). -/
inductive Service where
  | getc | out | puts | inp | putsp | halt
  deriving DecidableEq, Repr

/-- The kinds of instruction error (R182). -/
inductive ErrorKind where
  /-- Invalid reserved (padding) bits (R82). -/
  | reservedBits
  /-- A BR word whose condition field is all zero (R83). -/
  | zeroBranchCondition
  /-- Every RTI word (R84, R175). -/
  | rti
  /-- Every word with the reserved opcode (R84, R176). -/
  | reservedOpcode
  /-- A TRAP word with clean padding and a vector outside 0x20..0x25 (R84, R168). -/
  | unknownTrapVector
  deriving DecidableEq, Repr

/-- One constructor per row of the opcode table. `jmp` and `trap` are the general rows; the table's rows RET
and GETC to HALT are words of theirs with a name of their own (R90), and the decoder answers that name (log 10).
`rti` and `reserved` carry bits 11 to 0 of their word, which the error record shows (R79, R183). -/
inductive Instr where
  | addReg (dr sr1 sr2 : Reg)
  | addImm (dr sr1 : Reg) (imm5 : BitVec 5)
  | andReg (dr sr1 sr2 : Reg)
  | andImm (dr sr1 : Reg) (imm5 : BitVec 5)
  | not (dr sr : Reg)
  | lea (dr : Reg) (off9 : BitVec 9)
  | ld (dr : Reg) (off9 : BitVec 9)
  | ldi (dr : Reg) (off9 : BitVec 9)
  | ldr (dr base : Reg) (off6 : BitVec 6)
  | st (sr : Reg) (off9 : BitVec 9)
  | sti (sr : Reg) (off9 : BitVec 9)
  | str (sr base : Reg) (off6 : BitVec 6)
  | br (nzp : BitVec 3) (off9 : BitVec 9)
  | jmp (base : Reg)
  | ret
  | jsr (off11 : BitVec 11)
  | jsrr (base : Reg)
  | trap (vect8 : BitVec 8)
  | getc
  | out
  | puts
  | in_
  | putsp
  | halt
  | rti (low12 : BitVec 12)
  | reserved (low12 : BitVec 12)
  deriving DecidableEq, Repr

/-- The opcode an instruction is written with (R67). -/
def Instr.opcode : Instr → Opcode
  | .addReg _ _ _ => .add
  | .addImm _ _ _ => .add
  | .andReg _ _ _ => .and
  | .andImm _ _ _ => .and
  | .not _ _ => .not
  | .lea _ _ => .lea
  | .ld _ _ => .ld
  | .ldi _ _ => .ldi
  | .ldr _ _ _ => .ldr
  | .st _ _ => .st
  | .sti _ _ => .sti
  | .str _ _ _ => .str
  | .br _ _ => .br
  | .jmp _ => .jmp
  | .ret => .jmp
  | .jsr _ => .jsr
  | .jsrr _ => .jsr
  | .trap _ => .trap
  | .getc => .trap
  | .out => .trap
  | .puts => .trap
  | .in_ => .trap
  | .putsp => .trap
  | .halt => .trap
  | .rti _ => .rti
  | .reserved _ => .reserved

end Sys2Proof
end

