-- ==== Sys2Proof/WellFormed.lean ====
section
/-! DEFINITION. Which terms of `Instr` are the canonical name of their word. Field widths are in the types, so
only two checks are left, one per general row of which the table names some words itself (R90, log 10):
a JMP to R7 is spelled RET, and a TRAP to one of the six service vectors is spelled by the service's name. -/

namespace Sys2Proof

/-- JMP is written for R0 to R6; JMP R7 is RET (R75, R90). -/
def Instr.jmpIsCanonical (base : Reg) : Bool :=
  base != 7

/-- TRAP is written for the vectors outside 0x20..0x25; the others have a service's name (R90, R150). -/
def Instr.trapIsCanonical (vect8 : BitVec 8) : Bool :=
  vect8 < 0x20#8 || 0x25#8 < vect8

/-- The instruction is the canonical name of its word: every word the decoder accepts has exactly one. -/
def Instr.wf : Instr → Bool
  | .jmp base => Instr.jmpIsCanonical base
  | .trap vect8 => Instr.trapIsCanonical vect8
  | .addReg _ _ _ | .addImm _ _ _ | .andReg _ _ _ | .andImm _ _ _ | .not _ _ => true
  | .lea _ _ | .ld _ _ | .ldi _ _ | .ldr _ _ _ | .st _ _ | .sti _ _ | .str _ _ _ => true
  | .br _ _ | .ret | .jsr _ | .jsrr _ => true
  | .getc | .out | .puts | .in_ | .putsp | .halt => true
  | .rti _ | .reserved _ => true

end Sys2Proof
end

