-- ==== Sys2Proof/Decode.lean ====
section
/-! DEFINITION. The decoder from a 16-bit word to an instruction, total and rejecting by kind (R87), the encoder
written from the same formats (R69 to R79), and the spec's own classification of all words (R82 to R84). -/

namespace Sys2Proof

/-- The bits `hi` down to `lo` of a word, bit 0 the least significant (R11). -/
def field (w : Word) (hi lo : Nat) : BitVec (hi - lo + 1) :=
  w.extractLsb hi lo

/-- The register a 3-bit field names (R21, R68). -/
def regOfBits (b : BitVec 3) : Reg :=
  ⟨b.toNat, b.isLt⟩

/-- The 3-bit field that names a register (R68). -/
def regBits (r : Reg) : BitVec 3 :=
  BitVec.ofNat 3 r.val

/-- The opcode assignment (R67). PRESUMED, unsafe: all values but TRAP's are general knowledge of
LC-3 in the spec itself (D1, log 8). -/
def Opcode.bits : Opcode → BitVec 4
  | .br => 0b0000#4
  | .add => 0b0001#4
  | .ld => 0b0010#4
  | .st => 0b0011#4
  | .jsr => 0b0100#4
  | .and => 0b0101#4
  | .ldr => 0b0110#4
  | .str => 0b0111#4
  | .rti => 0b1000#4
  | .not => 0b1001#4
  | .ldi => 0b1010#4
  | .sti => 0b1011#4
  | .jmp => 0b1100#4
  | .reserved => 0b1101#4
  | .lea => 0b1110#4
  | .trap => 0b1111#4

/-- The opcode a 4-bit value selects; all sixteen values are decoded (R66, R67). -/
def Opcode.ofBits (b : BitVec 4) : Opcode :=
  if b = 0b0000#4 then .br
  else if b = 0b0001#4 then .add
  else if b = 0b0010#4 then .ld
  else if b = 0b0011#4 then .st
  else if b = 0b0100#4 then .jsr
  else if b = 0b0101#4 then .and
  else if b = 0b0110#4 then .ldr
  else if b = 0b0111#4 then .str
  else if b = 0b1000#4 then .rti
  else if b = 0b1001#4 then .not
  else if b = 0b1010#4 then .ldi
  else if b = 0b1011#4 then .sti
  else if b = 0b1100#4 then .jmp
  else if b = 0b1101#4 then .reserved
  else if b = 0b1110#4 then .lea
  else .trap

/-- The opcode of a word, its bits 15 to 12 (R66). -/
def opcode (w : Word) : Opcode :=
  Opcode.ofBits (field w 15 12)

/-- The trap vector of each service (R150). -/
def Service.vector : Service → BitVec 8
  | .getc => 0x20#8
  | .out => 0x21#8
  | .puts => 0x22#8
  | .inp => 0x23#8
  | .putsp => 0x24#8
  | .halt => 0x25#8

/-- The service a trap vector selects; none for a vector outside 0x20..0x25 (R150, R168). -/
def Service.ofVector (v : BitVec 8) : Option Service :=
  if v = 0x20#8 then some .getc
  else if v = 0x21#8 then some .out
  else if v = 0x22#8 then some .puts
  else if v = 0x23#8 then some .inp
  else if v = 0x24#8 then some .putsp
  else if v = 0x25#8 then some .halt
  else none

/-- The register at bits 11 to 9: DR, or the SR of a store (R68). -/
def fieldDr (w : Word) : Reg := regOfBits (field w 11 9)

/-- The register at bits 8 to 6: SR1, the SR of NOT, or BaseR (R68). -/
def fieldSr1 (w : Word) : Reg := regOfBits (field w 8 6)

/-- The register at bits 2 to 0: SR2 (R68). -/
def fieldSr2 (w : Word) : Reg := regOfBits (field w 2 0)

/-- The name the opcode table gives a TRAP word with clean padding: a service's, or `trap` itself (R90). -/
def trapInstr (v : BitVec 8) : Instr :=
  match Service.ofVector v with
  | some .getc => .getc
  | some .out => .out
  | some .puts => .puts
  | some .inp => .in_
  | some .putsp => .putsp
  | some .halt => .halt
  | none => .trap v

/-- The name the opcode table gives a JMP word with clean padding: RET for R7 (R75, R90). -/
def jmpInstr (base : Reg) : Instr :=
  if base = 7 then .ret else .jmp base

/-- The decoder: every word gives an instruction of the table or is rejected for its padding (R82, R87).
The words R87 rejects for another reason are rows of the table (RTI, the reserved opcode) or words of a row
(BR with no condition, TRAP with an unknown vector); they decode to it and its meaning raises the error, as the
pseudocode of R140, R150, R175 and R176 does. `classify` below is R87 whole. -/
def decode (w : Word) : Except ErrorKind Instr :=
  match opcode w with
  | .add =>
    if field w 5 5 = 1#1 then .ok (.addImm (fieldDr w) (fieldSr1 w) (field w 4 0))
    else if field w 4 3 = 0b00#2 then .ok (.addReg (fieldDr w) (fieldSr1 w) (fieldSr2 w))
    else .error .reservedBits
  | .and =>
    if field w 5 5 = 1#1 then .ok (.andImm (fieldDr w) (fieldSr1 w) (field w 4 0))
    else if field w 4 3 = 0b00#2 then .ok (.andReg (fieldDr w) (fieldSr1 w) (fieldSr2 w))
    else .error .reservedBits
  | .not =>
    if field w 5 0 = 0b111111#6 then .ok (.not (fieldDr w) (fieldSr1 w))
    else .error .reservedBits
  | .lea => .ok (.lea (fieldDr w) (field w 8 0))
  | .ld => .ok (.ld (fieldDr w) (field w 8 0))
  | .ldi => .ok (.ldi (fieldDr w) (field w 8 0))
  | .ldr => .ok (.ldr (fieldDr w) (fieldSr1 w) (field w 5 0))
  | .st => .ok (.st (fieldDr w) (field w 8 0))
  | .sti => .ok (.sti (fieldDr w) (field w 8 0))
  | .str => .ok (.str (fieldDr w) (fieldSr1 w) (field w 5 0))
  | .br => .ok (.br (field w 11 9) (field w 8 0))
  | .jmp =>
    if field w 11 9 = 0b000#3 ∧ field w 5 0 = 0b000000#6 then .ok (jmpInstr (fieldSr1 w))
    else .error .reservedBits
  | .jsr =>
    if field w 11 11 = 1#1 then .ok (.jsr (field w 10 0))
    else if field w 10 9 = 0b00#2 ∧ field w 5 0 = 0b000000#6 then .ok (.jsrr (fieldSr1 w))
    else .error .reservedBits
  | .trap =>
    if field w 11 8 = 0b0000#4 then .ok (trapInstr (field w 7 0))
    else .error .reservedBits
  | .rti => .ok (.rti (field w 11 0))
  | .reserved => .ok (.reserved (field w 11 0))

/-- The error an instruction raises whatever the state, if any (R83, R84). -/
def Instr.invalid : Instr → Option ErrorKind
  | .br nzp _ => if nzp = 0b000#3 then some .zeroBranchCondition else none
  | .trap v => if Service.ofVector v = none then some .unknownTrapVector else none
  | .rti _ => some .rti
  | .reserved _ => some .reservedOpcode
  | .addReg _ _ _ | .addImm _ _ _ | .andReg _ _ _ | .andImm _ _ _ | .not _ _ => none
  | .lea _ _ | .ld _ _ | .ldi _ _ | .ldr _ _ _ | .st _ _ | .sti _ _ | .str _ _ _ => none
  | .jmp _ | .ret | .jsr _ | .jsrr _ => none
  | .getc | .out | .puts | .in_ | .putsp | .halt => none

/-- The spec's decoder whole: an instruction that executes, or the kind of the instruction error (R87). -/
def classify (w : Word) : Except ErrorKind Instr :=
  match decode w with
  | .error k => .error k
  | .ok i =>
    match i.invalid with
    | some k => .error k
    | none => .ok i

/-! The formats, each a word put together from its fields, bit 15 first -/

/-- Format OPR: opcode, DR, SR1, mode bit 0 and padding 00, SR2 (R69). -/
def wordOpr (op : Opcode) (dr sr1 sr2 : Reg) : Word :=
  op.bits ++ regBits dr ++ regBits sr1 ++ 0b000#3 ++ regBits sr2

/-- Format OPI: opcode, DR, SR1, mode bit 1, imm5 (R70). -/
def wordOpi (op : Opcode) (dr sr1 : Reg) (imm5 : BitVec 5) : Word :=
  op.bits ++ regBits dr ++ regBits sr1 ++ 0b1#1 ++ imm5

/-- Format NOT: opcode, DR, SR, 111111 (R71). -/
def wordNot (dr sr : Reg) : Word :=
  Opcode.not.bits ++ regBits dr ++ regBits sr ++ 0b111111#6

/-- Format PC9: opcode, DR or SR, PCoffset9 (R72). -/
def wordPc9 (op : Opcode) (r : Reg) (off9 : BitVec 9) : Word :=
  op.bits ++ regBits r ++ off9

/-- Format BR: opcode, n, z, p, PCoffset9 (R73). -/
def wordBr (nzp : BitVec 3) (off9 : BitVec 9) : Word :=
  Opcode.br.bits ++ nzp ++ off9

/-- Format BASE6: opcode, DR or SR, BaseR, offset6 (R74). -/
def wordBase6 (op : Opcode) (r base : Reg) (off6 : BitVec 6) : Word :=
  op.bits ++ regBits r ++ regBits base ++ off6

/-- Format JMP: opcode, 000, BaseR, 000000 (R75). -/
def wordJmp (base : Reg) : Word :=
  Opcode.jmp.bits ++ 0b000#3 ++ regBits base ++ 0b000000#6

/-- Format JSR: opcode, mode bit 1, PCoffset11 (R76). -/
def wordJsr (off11 : BitVec 11) : Word :=
  Opcode.jsr.bits ++ 0b1#1 ++ off11

/-- Format JSRR: opcode, mode bit 0 and padding 00, BaseR, 000000 (R77). -/
def wordJsrr (base : Reg) : Word :=
  Opcode.jsr.bits ++ 0b000#3 ++ regBits base ++ 0b000000#6

/-- Format TRAP: opcode, 0000, trapvect8 (R78). -/
def wordTrap (vect8 : BitVec 8) : Word :=
  Opcode.trap.bits ++ 0b0000#4 ++ vect8

/-- RTI and the reserved opcode: opcode, any twelve bits (R79). -/
def wordAny (op : Opcode) (low12 : BitVec 12) : Word :=
  op.bits ++ low12

/-- The word of an instruction, in the format its rule names (R69 to R79). -/
def encode : Instr → Word
  | .addReg dr sr1 sr2 => wordOpr .add dr sr1 sr2
  | .addImm dr sr1 imm5 => wordOpi .add dr sr1 imm5
  | .andReg dr sr1 sr2 => wordOpr .and dr sr1 sr2
  | .andImm dr sr1 imm5 => wordOpi .and dr sr1 imm5
  | .not dr sr => wordNot dr sr
  | .lea dr off9 => wordPc9 .lea dr off9
  | .ld dr off9 => wordPc9 .ld dr off9
  | .ldi dr off9 => wordPc9 .ldi dr off9
  | .ldr dr base off6 => wordBase6 .ldr dr base off6
  | .st sr off9 => wordPc9 .st sr off9
  | .sti sr off9 => wordPc9 .sti sr off9
  | .str sr base off6 => wordBase6 .str sr base off6
  | .br nzp off9 => wordBr nzp off9
  | .jmp base => wordJmp base
  | .ret => wordJmp 7
  | .jsr off11 => wordJsr off11
  | .jsrr base => wordJsrr base
  | .trap vect8 => wordTrap vect8
  | .getc => wordTrap Service.getc.vector
  | .out => wordTrap Service.out.vector
  | .puts => wordTrap Service.puts.vector
  | .in_ => wordTrap Service.inp.vector
  | .putsp => wordTrap Service.putsp.vector
  | .halt => wordTrap Service.halt.vector
  | .rti low12 => wordAny .rti low12
  | .reserved low12 => wordAny .reserved low12

/-- The 16-bit word a row of the opcode table gives: bit 0 is the least significant bit of the one word an
instruction has (R11, R65). -/
def tableWord (nbits w : Nat) : Word :=
  BitVec.ofNat 16 (w % 2 ^ nbits)

/-- The instruction the decoder reads from the `nbits` bits `w`, numbered as spec/opcode_table.json numbers them;
none where the decoder rejects the word. -/
def decodeTableWord (nbits w : Nat) : Option Instr :=
  match decode (tableWord nbits w) with
  | .ok i => some i
  | .error _ => none

end Sys2Proof
end

