-- ==== Sys2Proof/Config.lean ====
section
/-! DEFINITION. What the source leaves open: the four parameters of R10 and the one free value.
Each is an opaque constant without a body, so no proof can see its value (log 3 and log 4). -/

namespace Sys2Proof

/-- The domain of `READ_HIGH_BYTE` (R10): what GETC and IN leave in R0[15:8]. -/
inductive ReadHighByte where
  | zero
  | preserve
  deriving DecidableEq, Repr, Inhabited

/-- The domain of `JSRR_LINK_ORDER` (R10): whether JSRR reads BaseR before or after writing R7. -/
inductive LinkOrder where
  | baseFirst
  | linkFirst
  deriving DecidableEq, Repr, Inhabited

/-- `READ_HIGH_BYTE` (R10, D22, U14). -/
opaque Config.readHighByte : ReadHighByte

/-- `JSRR_LINK_ORDER` (R10, D23, U15). -/
opaque Config.jsrrLinkOrder : LinkOrder

/-- `IN_PROMPT`, the bytes IN prints before it reads (R10, D24, U16). -/
opaque Config.inPrompt : List Byte

/-- `IN_ECHO_SUFFIX`, the bytes IN prints after the echoed character (R10, D25, U17). -/
opaque Config.inEchoSuffix : List Byte

/-- The value of `pc` after an instruction error, the n-th value drawn in a run: "any value" (R103, U1, log 4). -/
opaque Config.freePc : Nat → Word

end Sys2Proof
end

