-- ==== Sys2Proof/Machine/State.lean ====
section
/-! DEFINITION. The machine's whole state as plain data (R20), the reasons a step does not exist, and reset. -/

namespace Sys2Proof.Machine

/-- The condition code: exactly one of NEGATIVE, ZERO, POSITIVE (R26, R27). -/
inductive CC where
  | n | z | p
  deriving DecidableEq, Repr

/-- The run status (R32). `error` records the kind, the offending word and its address (R183). -/
inductive Status where
  | running
  | halted
  | error (kind : ErrorKind) (word addr : Word)
  deriving DecidableEq, Repr

/-- The trap service sequencer (R30). -/
inductive Svc where
  | idle
  | waitGetc
  | waitIn
  | puts (a : Word)
  | putsp (a : Word)
  deriving DecidableEq, Repr

/-- Memory: the words that differ from 0x0000, which is what an unlisted address reads as (R36, R45, R205), as
(address, word) pairs in rising order of address. The cell is the word, the spec's unit of addressing; no byte
has an address and memory has no byte order (R46, R53, log 1). -/
abbrev Memory := List (Nat × Word)

/-- Everything the spec gives the machine: its tuple S = (mem, x, pc, cc, status, svc, lastNL) of R20, the
console's two byte sequences, and one counter of the model's own. -/
structure State where
  /-- The 65,536-word memory (R45). -/
  mem : Memory
  /-- The general registers R0 to R7 (R21). -/
  x : Vector Word 8
  /-- The program counter, a word address (R24). -/
  pc : Word
  /-- The condition code (R26). -/
  cc : CC
  /-- The run status (R32). -/
  status : Status
  /-- The trap service sequencer (R30). -/
  svc : Svc
  /-- The console line-start bit (R31). -/
  lastNL : Bool
  /-- The console output, oldest byte first (R151). -/
  out : List Byte
  /-- How many bytes at the end of `out` were emitted after the last flush signal (R111, R161, log 7). -/
  unflushed : Nat
  /-- The console bytes the host has supplied and the core has not taken, oldest first (R112, R153, log 5). -/
  input : List Byte
  /-- The model's own counter of free values taken (log 4). -/
  draws : Nat
  deriving DecidableEq, Repr

/-- Why there is no next step. Neither is the outcome of an instruction's meaning: `step` answers them. -/
inductive Fault where
  /-- The run has ended: `status` is Halted or Error and the core takes no further step (R104). Raised by `step`.
  Safe: the spec gives no step here. -/
  | runEnded
  /-- A console read waits and the host has supplied no byte: the core has no step until it does (R153, U9, D14).
  Raised by the completion micro-steps of GETC and IN. Safe: the spec gives no step here. -/
  | awaitingInput
  deriving DecidableEq, Repr

/-- Why an instruction has no meaning in this model. -/
inductive Refusal where
  /-- An instruction whose arm of `exec` has no meaning yet. Raised by no arm now; it would be safe. -/
  | notModelled (mnemonic : String)
  deriving DecidableEq, Repr

/-- The machine right after reset, before an image is loaded (R36, R205). The spec gives every value but two:
`pc` is the image origin (R206), which no image has set yet, so it is 0x0000 here (DESIGN CHOICE, unsafe, log 2),
and `draws` is the model's own (DESIGN CHOICE, log 4). -/
def State.reset : State where
  mem := []
  x := #v[0x0000#16, 0x0000#16, 0x0000#16, 0x0000#16, 0x0000#16, 0x0000#16, 0x0000#16, 0x0000#16]
  pc := 0x0000#16
  cc := .z
  status := .running
  svc := .idle
  lastNL := true
  out := []
  unflushed := 0
  input := []
  draws := 0

end Sys2Proof.Machine
end

