-- ==== Sys2Proof/Machine/Flags.lean ====
section
/-! DEFINITION. The one flag computation, `setcc`, and the one reader of the flags, BR's test. -/

namespace Sys2Proof.Machine

/-- The condition code of a 16-bit result: N if bit 15 is set, Z if it is zero, else P (R100). -/
def ccOf (r : Word) : CC :=
  if r.msb then .n else if r = 0x0000#16 then .z else .p

/-- The one-hot encoding of the condition code (R27). PRESUMED by the spec (D3, log 9); only BR observes it. -/
def CC.enc : CC → BitVec 3
  | .n => 0b100#3
  | .z => 0b010#3
  | .p => 0b001#3

/-- BR's test, "CC & 3-bit condition field" (R140). -/
def branchTaken (cc : CC) (nzp : BitVec 3) : Bool :=
  cc.enc &&& nzp != 0b000#3

end Sys2Proof.Machine
end

