-- ==== Sys2Proof/Machine/Ops.lean ====
section
/-! DEFINITION. The named operations over memory, registers, the program counter and the console, and taking an
instruction error. Every meaning is written over these. -/

namespace Sys2Proof.Machine

/-! Memory (R45 to R52) -/

/-- The word at an address; an unlisted address holds 0x0000 (R36, R52). -/
def Memory.read : Memory → Word → Word
  | [], _ => 0x0000#16
  | (k, v) :: m, a => if k = a.toNat then v else Memory.read m a

/-- Memory with one address unlisted. -/
def Memory.unlist : Memory → Word → Memory
  | [], _ => []
  | (k, u) :: m, a => if k = a.toNat then Memory.unlist m a else (k, u) :: Memory.unlist m a

/-- Memory with one more address listed, before the first higher one. -/
def Memory.list : Memory → Word → Word → Memory
  | [], a, v => [(a.toNat, v)]
  | (k, u) :: m, a, v => if a.toNat < k then (a.toNat, v) :: (k, u) :: m else (k, u) :: Memory.list m a v

/-- Memory with one word replaced, no other cell changed (R52). Writing 0x0000 leaves the address unlisted. -/
def Memory.write (m : Memory) (a v : Word) : Memory :=
  if v = 0x0000#16 then Memory.unlist m a else Memory.list (Memory.unlist m a) a v

/-- The listed addresses rise strictly from `lo`, exist (R45), and none holds what an unlisted address reads as. -/
def Memory.wfFrom : Nat → Memory → Bool
  | _, [] => true
  | lo, (k, v) :: m => decide (lo ≤ k) && decide (k < 65536) && v != 0x0000#16 && Memory.wfFrom (k + 1) m

/-- The canonical form of memory: equal memories are equal lists (log 1). -/
def Memory.wf (m : Memory) : Bool :=
  Memory.wfFrom 0 m

/-- Memory with words written from an address on, the address advancing modulo 65536 (R48, R207). -/
def Memory.writeBlock : Memory → Word → List Word → Memory
  | m, _, [] => m
  | m, a, v :: vs => Memory.writeBlock (Memory.write m a v) (a + 1) vs

/-- `MemRead(a, 1)` (R52). -/
def State.memRead (s : State) (a : Word) : Word :=
  Memory.read s.mem a

/-- `MemWrite(a, 1, v)` (R52). -/
def State.memWrite (s : State) (a v : Word) : State :=
  { s with mem := Memory.write s.mem a v }

/-! Registers, program counter, condition code, sequencer -/

/-- `x[i]`: no register is hardwired (R14, R21). -/
def State.reg (s : State) (i : Reg) : Word :=
  s.x[i]

/-- `x[i] <- v` (R14, R21). -/
def State.setReg (s : State) (i : Reg) (v : Word) : State :=
  { s with x := s.x.set i.val v i.isLt }

/-- `pc <- t` (R14). -/
def State.setPc (s : State) (t : Word) : State :=
  { s with pc := t }

/-- The increment of `pc` at fetch, modulo 65536 (R96). -/
def State.advance (s : State) : State :=
  s.setPc (s.pc + 1)

/-- `setcc(r)` (R100). -/
def State.setcc (s : State) (r : Word) : State :=
  { s with cc := ccOf r }

/-- `x[DR] <- r; setcc(r)`, how ADD, AND, NOT, LD, LDI and LDR end (R101). -/
def State.writeResult (s : State) (dr : Reg) (r : Word) : State :=
  (s.setReg dr r).setcc r

/-- Move the service sequencer (R30). -/
def State.setSvc (s : State) (v : Svc) : State :=
  { s with svc := v }

/-- The word the next instruction step fetches, `mem[pc]` at the moment of the fetch (R59, R96). -/
def State.fetchWord (s : State) : Word :=
  s.memRead s.pc

/-! The console -/

/-- `emit(b)` (R152); the byte is not flushed yet. -/
def State.emit (s : State) (b : Byte) : State :=
  { s with out := s.out ++ [b], lastNL := decide (b = 0x0A#8), unflushed := s.unflushed + 1 }

/-- Emit each byte of a string in order (R163, R164). -/
def State.emitAll (s : State) : List Byte → State
  | [] => s
  | b :: bs => (s.emit b).emitAll bs

/-- The flush signal: every byte emitted is visible to the host (R111, R151, R161). -/
def State.flush (s : State) : State :=
  { s with unflushed := 0 }

/-- The host supplies console bytes, delivered raw and in order (R112, R153, D20). Not a step of the core. -/
def State.supply (s : State) (bs : List Byte) : State :=
  { s with input := s.input ++ bs }

/-! Taking the one exception there is. It saves no state, switches no mode and goes to no vector (R190), and there
is no return from it (R191): it ends the run. -/

/-- `raise InstructionError(k)` for word `w` at address `a`: `status <- Error(k, w, a)` and nothing else (R181), but
that `pc` afterwards is not meaningful (R103): it is a free value (U1, log 4). -/
def State.raise (s : State) (k : ErrorKind) (w a : Word) : State :=
  { s with status := .error k w a, pc := Config.freePc s.draws, draws := s.draws + 1 }

/-- Raise the error of the instruction being executed: its word is its encoding and its address is one below `pc`,
which the fetch has advanced (R24, R181, DEDUCED, log 11). -/
def State.raiseFor (s : State) (k : ErrorKind) (i : Instr) : State :=
  s.raise k (encode i) (s.pc - 1)

end Sys2Proof.Machine
end

