-- ==== Sys2Proof/Machine/Operands.lean ====
section
/-! DEFINITION. Every operand form: immediates, register and immediate operands, the three addressing modes, and
the bytes of a word. -/

namespace Sys2Proof.Machine

/-- `sext_n(v)`: the n-bit two's-complement value widened to 16 bits (R12, R80). -/
def sext {n : Nat} (v : BitVec n) : Word :=
  v.signExtend 16

/-- `zext_8(b)` (R12). -/
def zext (b : Byte) : Word :=
  b.setWidth 16

/-- The low byte of a word, bits 7 to 0 (R15). -/
def lo (w : Word) : Byte :=
  w.extractLsb 7 0

/-- The high byte of a word, bits 15 to 8 (R15). -/
def hi (w : Word) : Byte :=
  w.extractLsb 15 8

/-- The PC-relative address or target: `pc`, already past the instruction, plus an offset (R121, R140, R142). -/
def State.pcRel {n : Nat} (s : State) (off : BitVec n) : Word :=
  s.pc + sext off

/-- The base+offset address (R121). -/
def State.baseOff (s : State) (base : Reg) (off6 : BitVec 6) : Word :=
  s.reg base + sext off6

/-- The indirect address: the word at the PC-relative address, one dereference (R121, R127, R130). -/
def State.indirect (s : State) (off9 : BitVec 9) : Word :=
  s.memRead (s.pcRel off9)

end Sys2Proof.Machine
end

