-- ==== Sys2Proof/Machine/Control.lean ====
section
/-! DEFINITION. The control transfers BR, JMP, RET, JSR and JSRR (43_control.md). -/

namespace Sys2Proof.Machine

/-- BR: an all-zero condition field is an instruction error; otherwise the branch is taken when the flag that
holds is selected (R140). -/
def execBr (nzp : BitVec 3) (off9 : BitVec 9) (s : State) : Host.Outcome State Fault Refusal :=
  if nzp = 0b000#3 then .next (s.raiseFor .zeroBranchCondition (.br nzp off9))
  else if branchTaken s.cc nzp then .next (s.setPc (s.pcRel off9))
  else .next s

/-- JMP (R141). -/
def execJmp (base : Reg) (s : State) : Host.Outcome State Fault Refusal :=
  .next (s.setPc (s.reg base))

/-- RET, which is JMP R7 (R90, R141). -/
def execRet (s : State) : Host.Outcome State Fault Refusal :=
  .next (s.setPc (s.reg 7))

/-- JSR: R7 receives the address of the next instruction (R142). -/
def execJsr (off11 : BitVec 11) (s : State) : Host.Outcome State Fault Refusal :=
  .next ((s.setReg 7 s.pc).setPc (s.pcRel off11))

/-- The link write and jump of JSRR in either order of the open parameter (R143). -/
def State.linkAndJump (order : LinkOrder) (base : Reg) (s : State) : State :=
  let linked := s.setReg 7 s.pc
  linked.setPc (match order with
    | .baseFirst => s.reg base
    | .linkFirst => linked.reg base)

/-- JSRR (R143, D23). -/
def execJsrr (base : Reg) (s : State) : Host.Outcome State Fault Refusal :=
  .next (s.linkAndJump Config.jsrrLinkOrder base)

end Sys2Proof.Machine
end

