-- ==== Sys2Proof/Machine/Invalid.lean ====
section
/-! DEFINITION. RTI and the reserved opcode: always an instruction error (45_invalid.md). -/

namespace Sys2Proof.Machine

/-- RTI raises its error whatever bits 11 to 0 hold (R175). -/
def execRti (low12 : BitVec 12) (s : State) : Host.Outcome State Fault Refusal :=
  .next (s.raiseFor .rti (.rti low12))

/-- The reserved opcode raises its error whatever bits 11 to 0 hold (R176). -/
def execReserved (low12 : BitVec 12) (s : State) : Host.Outcome State Fault Refusal :=
  .next (s.raiseFor .reservedOpcode (.reserved low12))

end Sys2Proof.Machine
end

