-- ==== Sys2Proof/Machine/LoadStore.lean ====
section
/-! DEFINITION. LEA, the loads and the stores (42_load_store.md). -/

namespace Sys2Proof.Machine

/-- LEA: the address itself, and the condition code is not written (R125, 90_conflicts.md C2). -/
def execLea (dr : Reg) (off9 : BitVec 9) (s : State) : Host.Outcome State Fault Refusal :=
  .next (s.setReg dr (s.pcRel off9))

/-- LD (R126). -/
def execLd (dr : Reg) (off9 : BitVec 9) (s : State) : Host.Outcome State Fault Refusal :=
  .next (s.writeResult dr (s.memRead (s.pcRel off9)))

/-- LDI (R127). -/
def execLdi (dr : Reg) (off9 : BitVec 9) (s : State) : Host.Outcome State Fault Refusal :=
  .next (s.writeResult dr (s.memRead (s.indirect off9)))

/-- LDR: BaseR is read before DR is written (R128). -/
def execLdr (dr base : Reg) (off6 : BitVec 6) (s : State) : Host.Outcome State Fault Refusal :=
  .next (s.writeResult dr (s.memRead (s.baseOff base off6)))

/-- ST (R129). -/
def execSt (sr : Reg) (off9 : BitVec 9) (s : State) : Host.Outcome State Fault Refusal :=
  .next (s.memWrite (s.pcRel off9) (s.reg sr))

/-- STI: the pointer is read before the write (R130). -/
def execSti (sr : Reg) (off9 : BitVec 9) (s : State) : Host.Outcome State Fault Refusal :=
  .next (s.memWrite (s.indirect off9) (s.reg sr))

/-- STR (R131). -/
def execStr (sr base : Reg) (off6 : BitVec 6) (s : State) : Host.Outcome State Fault Refusal :=
  .next (s.memWrite (s.baseOff base off6) (s.reg sr))

end Sys2Proof.Machine
end

