-- ==== Sys2Proof/Machine/Trap.lean ====
section
/-! DEFINITION. TRAP and the six services it starts, and the micro-steps of the service sequencer (44_trap.md).
No TRAP writes `cc`, R7 or memory (R170). -/

namespace Sys2Proof.Machine

/-! The start of each service, in the TRAP step -/

/-- GETC, start: wait for a byte and write nothing else (R155). -/
def State.startGetc (s : State) : State :=
  s.setSvc .waitGetc

/-- OUT: emit the low byte of R0 and flush (R157). -/
def State.doOut (s : State) : State :=
  (s.emit (lo (s.reg 0))).flush

/-- PUTS, start (R158). -/
def State.startPuts (s : State) : State :=
  s.setSvc (.puts (s.reg 0))

/-- IN, start: a line feed unless the console is at the start of a line, the prompt, a flush, then wait (R163). -/
def State.startIn (prompt : List Byte) (s : State) : State :=
  let atLineStart := if s.lastNL then s else s.emit 0x0A#8
  ((atLineStart.emitAll prompt).flush).setSvc .waitIn

/-- PUTSP, start (R165). -/
def State.startPutsp (s : State) : State :=
  s.setSvc (.putsp (s.reg 0))

/-- HALT: flush and end the run, not an error (R167). -/
def State.doHalt (s : State) : State :=
  { s.flush with status := .halted }

/-- The dispatch of a service (R150). -/
def State.startService (s : State) : Service → State
  | .getc => s.startGetc
  | .out => s.doOut
  | .puts => s.startPuts
  | .inp => s.startIn Config.inPrompt
  | .putsp => s.startPutsp
  | .halt => s.doHalt

/-! The instructions -/

/-- TRAP with any vector: a service, or the error of an unknown vector (R150, R168). -/
def execTrap (vect8 : BitVec 8) (s : State) : Host.Outcome State Fault Refusal :=
  match Service.ofVector vect8 with
  | some v => .next (s.startService v)
  | none => .next (s.raiseFor .unknownTrapVector (.trap vect8))

/-- GETC (R155). -/
def execGetc (s : State) : Host.Outcome State Fault Refusal :=
  .next s.startGetc

/-- OUT (R157). -/
def execOut (s : State) : Host.Outcome State Fault Refusal :=
  .next s.doOut

/-- PUTS (R158). -/
def execPuts (s : State) : Host.Outcome State Fault Refusal :=
  .next s.startPuts

/-- IN (R162, R163). -/
def execIn (s : State) : Host.Outcome State Fault Refusal :=
  .next (s.startIn Config.inPrompt)

/-- PUTSP (R165). -/
def execPutsp (s : State) : Host.Outcome State Fault Refusal :=
  .next s.startPutsp

/-- HALT (R167). -/
def execHalt (s : State) : Host.Outcome State Fault Refusal :=
  .next s.doHalt

/-! The micro-steps (R154) -/

/-- The value a console byte leaves in R0, for either value of `READ_HIGH_BYTE` (R156). -/
def readInto (mode : ReadHighByte) (old : Word) (c : Byte) : Word :=
  match mode with
  | .zero => zext c
  | .preserve => (old &&& 0xFF00#16) ||| zext c

/-- GETC, completion with byte `c` (R156). -/
def State.finishGetc (mode : ReadHighByte) (c : Byte) (s : State) : State :=
  (s.setReg 0 (readInto mode (s.reg 0) c)).setSvc .idle

/-- IN, completion with byte `c`: echo, the suffix, R0, a flush (R164). -/
def State.finishIn (mode : ReadHighByte) (suffix : List Byte) (c : Byte) (s : State) : State :=
  let echoed := (s.emit c).emitAll suffix
  ((echoed.setReg 0 (readInto mode (s.reg 0) c)).flush).setSvc .idle

/-- `awaitByte()`: take the oldest byte the host has supplied; with none there is no step (R153). -/
def State.awaitByte (s : State) (finish : Byte → State → State) : Host.Outcome State Fault Refusal :=
  match s.input with
  | [] => .fault .awaitingInput
  | c :: rest => .next (finish c { s with input := rest })

/-- The micro-step of `WaitGetc` (R156). -/
def microGetc (s : State) : Host.Outcome State Fault Refusal :=
  s.awaitByte (State.finishGetc Config.readHighByte)

/-- The micro-step of `WaitIn` (R164). -/
def microIn (s : State) : Host.Outcome State Fault Refusal :=
  s.awaitByte (State.finishIn Config.readHighByte Config.inEchoSuffix)

/-- The micro-step of `Puts(a)`: the low byte of one word, or the end of the string (R159). -/
def microPuts (a : Word) (s : State) : Host.Outcome State Fault Refusal :=
  let w := s.memRead a
  if lo w = 0x00#8 then .next (s.flush.setSvc .idle)
  else .next ((s.emit (lo w)).setSvc (.puts (a + 1)))

/-- The micro-step of `Putsp(a)`: the low byte, then the high byte, of one word, or the end of the string (R166). -/
def microPutsp (a : Word) (s : State) : Host.Outcome State Fault Refusal :=
  let w := s.memRead a
  if lo w = 0x00#8 then .next (s.flush.setSvc .idle)
  else if hi w = 0x00#8 then .next (((s.emit (lo w)).flush).setSvc .idle)
  else .next (((s.emit (lo w)).emit (hi w)).setSvc (.putsp (a + 1)))

end Sys2Proof.Machine
end

