-- ==== Sys2Proof/Machine/Step.lean ====
section
/-! DEFINITION. One step of the core: an instruction step or one service micro-step (R95). -/

namespace Sys2Proof.Machine

/-- The instruction step (R106): fetch at `pc`, advance `pc`, decode, then raise the decoder's error or execute. -/
def instrStep (s : State) : Host.Outcome State Fault Refusal :=
  match decode s.fetchWord with
  | .ok i => exec i s.advance
  | .error k => .next (s.advance.raise k s.fetchWord s.pc)

/-- A step exists only while the core runs; a service in progress goes before the next fetch (R95, R104, R154). -/
def step (s : State) : Host.Outcome State Fault Refusal :=
  match s.status with
  | .running =>
    match s.svc with
    | .idle => instrStep s
    | .waitGetc => microGetc s
    | .waitIn => microIn s
    | .puts a => microPuts a s
    | .putsp a => microPutsp a s
  | .halted => .fault .runEnded
  | .error _ _ _ => .fault .runEnded

/-- The word stored where the next instruction is fetched, the core running and between instructions, so that the
very next step fetches and runs it (log 2). It stands for an image loaded from outside. -/
def State.withFetchWord (s : State) (nbits w : Nat) : State :=
  { s with mem := Memory.write s.mem s.pc (tableWord nbits w), status := .running, svc := .idle }

end Sys2Proof.Machine
end

