-- ==== Sys2Proof/Machine/Loader.lean ====
section
/-! DEFINITION. The core's interface to the image loader and to the host: the image format and its rejection
(R205 to R208), the exit codes (R184) and the numbers of the error kinds (R182). -/

namespace Sys2Proof.Machine

/-- Why an image is rejected before the core starts (R185, R208). -/
inductive ImageError where
  /-- A file of zero length: no origin. -/
  | emptyFile
  /-- A 1-byte file: a truncated header. -/
  | truncatedHeader
  /-- A file of odd length of 3 or more: a trailing half word (D15). -/
  | oddLength
  /-- An origin and no payload word. -/
  | noPayload
  /-- A payload that does not fit before address 65536. -/
  | payloadTooLong
  deriving DecidableEq, Repr

/-- The words of a big-endian byte stream; none if a byte is left over (R207). -/
def wordsOfBytes : List Byte → Option (List Word)
  | [] => some []
  | [_] => none
  | h :: l :: rest => (wordsOfBytes rest).map ((h ++ l) :: ·)

/-- The state an image's run starts from, its payload written from the origin on and `pc` at the origin, or why the
image is rejected (R205 to R208). Where a file has two faults the order of the checks is the model's (log 17). -/
def loadImage : List Byte → Except ImageError State
  | [] => .error .emptyFile
  | [_] => .error .truncatedHeader
  | h :: l :: rest =>
    match wordsOfBytes rest with
    | none => .error .oddLength
    | some [] => .error .noPayload
    | some (w :: ws) =>
      let origin : Word := h ++ l
      if origin.toNat + (ws.length + 1) ≤ 65536 then
        .ok { State.reset with pc := origin, mem := Memory.writeBlock [] origin (w :: ws) }
      else .error .payloadTooLong

/-- The exit code the host reports for a status: none while the core runs (R184). -/
def Status.exitCode : Status → Option Nat
  | .running => none
  | .halted => some 0
  | .error _ _ _ => some 3

/-- The exit code the host reports for a rejected image (R184, R208). -/
def ImageError.exitCode : ImageError → Nat
  | .emptyFile => 2
  | .truncatedHeader => 2
  | .oddLength => 2
  | .noPayload => 2
  | .payloadTooLong => 2

/-- The spec's own numbers of the error kinds (R182, D9). -/
def errorCode : ErrorKind → Nat
  | .reservedBits => 1
  | .zeroBranchCondition => 2
  | .rti => 3
  | .reservedOpcode => 4
  | .unknownTrapVector => 5

end Sys2Proof.Machine
end

