-- ==== Sys2Proof/Safety.lean ====
section
/-! DEFINITION. The terms claims are stated in: when an instruction step is possible, what is observable of a run,
what a step leaves alone, and the invariant of the machine. -/

namespace Sys2Proof.Machine

/-- An instruction step is possible: the core runs and no service is in progress (R95). -/
def State.ready (s : State) : Prop :=
  s.status = .running ∧ s.svc = .idle

/-- The core is blocked on the console: a read waits and no byte has been supplied (R153, R197). -/
def State.blocked (s : State) : Prop :=
  (s.svc = .waitGetc ∨ s.svc = .waitIn) ∧ s.input = []

/-- The run failed: it ended in an instruction error (R104, R180). A safe run reaches no such state. -/
def State.failed (s : State) : Prop :=
  ∃ k w a, s.status = .error k w a

/-- `t` is reached from `s` by some number of steps. -/
def Reaches (s t : State) : Prop :=
  ∃ n, Host.Core.run Sys2Proof.core n s = .next t

/-- A run from `s` is safe: no state it reaches has failed. -/
def SafeFrom (s : State) : Prop :=
  ∀ t, Reaches s t → ¬ t.failed

/-- How a run stands, as far as it is observable: the full machine at Halted; at Error only the kind, the word and
its address (R109, D19). -/
inductive Ending where
  | running
  | halted (x : Vector Word 8) (pc : Word) (cc : CC) (mem : Memory)
  | error (kind : ErrorKind) (word addr : Word)
  deriving DecidableEq, Repr

/-- What is observable of a run so far: the console output and how the run stands (R109). -/
def State.observe (s : State) : List Byte × Ending :=
  (s.out, match s.status with
    | .running => .running
    | .halted => .halted s.x s.pc s.cc s.mem
    | .error k w a => .error k w a)

/-! Frames: what `t` has as `s` had it -/

/-- Every word of memory reads as before. -/
def SameMemory (s t : State) : Prop :=
  ∀ a : Word, t.memRead a = s.memRead a

/-- Every word of memory but the one at `ea` reads as before. -/
def SameMemoryBut (ea : Word) (s t : State) : Prop :=
  ∀ a : Word, a ≠ ea → t.memRead a = s.memRead a

/-- Every general register reads as before. -/
def SameRegs (s t : State) : Prop :=
  ∀ r : Reg, t.reg r = s.reg r

/-- Every general register but `dr` reads as before. -/
def SameRegsBut (dr : Reg) (s t : State) : Prop :=
  ∀ r : Reg, r ≠ dr → t.reg r = s.reg r

/-- The console is as before: its output, what of it is flushed, its line-start bit, and its input. -/
def SameConsole (s t : State) : Prop :=
  t.out = s.out ∧ t.unflushed = s.unflushed ∧ t.lastNL = s.lastNL ∧ t.input = s.input

/-- The run status, the service sequencer and the model's counter are as before. -/
def SameControl (s t : State) : Prop :=
  t.status = s.status ∧ t.svc = s.svc ∧ t.draws = s.draws

/-- The flag that agrees with the signed sign of `r`, and no other (R101): its three readings in full. -/
def SignFlag (r : Word) (c : CC) : Prop :=
  (c = .n ↔ r.toInt < 0) ∧ (c = .z ↔ r.toInt = 0) ∧ (c = .p ↔ 0 < r.toInt)

/-! What a completed instruction or service step leaves -/

/-- `dr` holds `v` and the condition code its flag; `pc` is `pc'`; nothing else differs (R101, R115 to R128). -/
def RegisterResult (dr : Reg) (v pc' : Word) (s t : State) : Prop :=
  t.reg dr = v ∧ SameRegsBut dr s t ∧ SignFlag v t.cc ∧ t.pc = pc' ∧ SameMemory s t ∧ SameConsole s t ∧
    SameControl s t

/-- `dr` holds `v`; `pc` is `pc'`; nothing else differs, the condition code neither (R125, R142, R143). -/
def RegisterOnly (dr : Reg) (v pc' : Word) (s t : State) : Prop :=
  t.reg dr = v ∧ SameRegsBut dr s t ∧ t.cc = s.cc ∧ t.pc = pc' ∧ SameMemory s t ∧ SameConsole s t ∧
    SameControl s t

/-- The word at `ea` is `v`; `pc` is `pc'`; nothing else differs (R129 to R131). -/
def WordStored (ea v pc' : Word) (s t : State) : Prop :=
  t.memRead ea = v ∧ SameMemoryBut ea s t ∧ SameRegs s t ∧ t.cc = s.cc ∧ t.pc = pc' ∧ SameConsole s t ∧
    SameControl s t

/-- `pc` is `pc'`; nothing else differs (R140, R141). -/
def OnlyJumped (pc' : Word) (s t : State) : Prop :=
  t.pc = pc' ∧ SameRegs s t ∧ t.cc = s.cc ∧ SameMemory s t ∧ SameConsole s t ∧ SameControl s t

/-- The instruction error `k` of word `w` at address `a` is taken: it is recorded, and no register, flag, word of
memory or console byte differs (R99, R181). Of `pc` it says nothing (R103). -/
def ErrorTaken (k : ErrorKind) (w a : Word) (s t : State) : Prop :=
  t.status = .error k w a ∧ SameRegs s t ∧ t.cc = s.cc ∧ SameMemory s t ∧ SameConsole s t ∧ t.svc = s.svc

/-- Memory, the registers, the condition code, the input, the run status and the model's counter are as before:
what a service step leaves alone but for its own writes (R170). -/
def ServiceFrame (s t : State) : Prop :=
  SameMemory s t ∧ SameRegs s t ∧ t.cc = s.cc ∧ t.input = s.input ∧ t.status = s.status ∧ t.draws = s.draws

/-! Which instruction may write what -/

/-- The general register an instruction writes, if any (R22). -/
def writesReg : Instr → Option Reg
  | .addReg dr _ _ => some dr
  | .addImm dr _ _ => some dr
  | .andReg dr _ _ => some dr
  | .andImm dr _ _ => some dr
  | .not dr _ => some dr
  | .lea dr _ => some dr
  | .ld dr _ => some dr
  | .ldi dr _ => some dr
  | .ldr dr _ _ => some dr
  | .jsr _ => some 7
  | .jsrr _ => some 7
  | .st _ _ | .sti _ _ | .str _ _ _ | .br _ _ | .jmp _ | .ret => none
  | .trap _ | .getc | .out | .puts | .in_ | .putsp | .halt => none
  | .rti _ | .reserved _ => none

/-- The register whose new value the condition code follows, for the six instructions that write it (R28). -/
def setsCc : Instr → Option Reg
  | .addReg dr _ _ => some dr
  | .addImm dr _ _ => some dr
  | .andReg dr _ _ => some dr
  | .andImm dr _ _ => some dr
  | .not dr _ => some dr
  | .ld dr _ => some dr
  | .ldi dr _ => some dr
  | .ldr dr _ _ => some dr
  | .lea _ _ | .st _ _ | .sti _ _ | .str _ _ _ | .br _ _ | .jmp _ | .ret | .jsr _ | .jsrr _ => none
  | .trap _ | .getc | .out | .puts | .in_ | .putsp | .halt => none
  | .rti _ | .reserved _ => none

/-- The address an instruction stores to in state `s` and the word it stores, if it stores (R47, R129 to R131). -/
def storesTo (s : State) : Instr → Option (Word × Word)
  | .st sr off9 => some (s.pcRel off9, s.reg sr)
  | .sti sr off9 => some (s.indirect off9, s.reg sr)
  | .str sr base off6 => some (s.baseOff base off6, s.reg sr)
  | .addReg _ _ _ | .addImm _ _ _ | .andReg _ _ _ | .andImm _ _ _ | .not _ _ => none
  | .lea _ _ | .ld _ _ | .ldi _ _ | .ldr _ _ _ => none
  | .br _ _ | .jmp _ | .ret | .jsr _ | .jsrr _ => none
  | .trap _ | .getc | .out | .puts | .in_ | .putsp | .halt => none
  | .rti _ | .reserved _ => none

/-- The byte at position `i` of a string of packed characters that starts at `a`: two bytes a word, the low one
first (R165). -/
def packedByte (s : State) (a : Word) (i : Nat) : Byte :=
  let w := s.memRead (a + BitVec.ofNat 16 (i / 2))
  if i % 2 = 0 then lo w else hi w

/-! The invariant -/

/-- The console is at the start of a line: nothing written, or the last byte was a line feed (R31). -/
def lineStart (out : List Byte) : Bool :=
  match out.getLast? with
  | none => true
  | some b => decide (b = 0x0A#8)

/-- What holds of the machine at reset and is kept by every step. -/
structure State.Inv (s : State) : Prop where
  /-- Memory is in its canonical form: rising addresses below 65536, no listed zero (R45, log 1). -/
  memWf : Memory.wf s.mem = true
  /-- The line-start bit says what the output says (R31). -/
  lineBit : s.lastNL = lineStart s.out
  /-- Only bytes that were emitted can be unflushed. -/
  unflushedLe : s.unflushed ≤ s.out.length
  /-- Every byte emitted is flushed, but while PUTS or PUTSP is in progress (R151, R161). -/
  flushed : (∀ a, s.svc ≠ .puts a) → (∀ a, s.svc ≠ .putsp a) → s.unflushed = 0
  /-- A run ends between instructions: no service is in progress then (R30, R105). -/
  endsIdle : s.status ≠ .running → s.svc = .idle
  /-- An error record is true: its word is one the decoder of R87 rejects with that kind (R182, R183). -/
  errorTrue : ∀ k w a, s.status = .error k w a → classify w = .error k

end Sys2Proof.Machine
end

