-- ==== Sys2Proof/Certificates/Slice0/Obligations.lean ====
section
/-! DEFINITION. The statements for the provers, from the spec's numbered rules. A word's bits are taken with
`extractLsb`, not with the decoder's own functions, so that the statements about words say what the formats say.
No statement reads `pc` after an instruction error (R103), and every statement holds whatever the four open
parameters of R10 are. What rests on a choice, of the spec or of the model, is not a rule of the source:
* opcode values and operand roles (R67, R68: D1, D2; log 8), condition bits (R73: D3; log 9): every statement that
  names a word other than a TRAP word;
* that an instruction error writes nothing else (R99, R103: D7; log 13): `ErrorTaken`;
* the word and address an instruction's own error records (log 11): the statements about `exec` and an error;
* the queue of supplied input bytes (log 5) and the count of unflushed bytes (log 7): `input`, `unflushed`;
* the line-start bit, IN's leading line feed, and that IN flushes its prompt and HALT leaves nothing unflushed
  (R31, R152, R161, R163: D12; log 19): `lastNL` and the flushes of IN and HALT;
* the terminator of PUTS and the wrap of PUTS and PUTSP (R159, R160, R166: D13; log 20);
* the canonical form of memory (log 1), the canonical names of words (log 10), the free `pc` and `draws` (log 4). -/

open Sys2Proof Sys2Proof.Machine

/-! Encoding and decoding -/

/-- Words written out from the formats of R69 to R79 and the spec's worked examples. -/
def Obligations.WrittenOutWordsDecode : Prop :=
  decode 0b0001_001_010_0_00_011#16 = .ok (.addReg 1 2 3) ∧
  decode 0b0101_000_000_1_10000#16 = .ok (.andImm 0 0 0b10000#5) ∧
  decode 0b1001_100_101_111111#16 = .ok (.not 4 5) ∧
  decode 0b0110_011_100_111111#16 = .ok (.ldr 3 4 0b111111#6) ∧
  decode 0b1011_001_000000011#16 = .ok (.sti 1 3#9) ∧
  decode 0b0000_010_111111101#16 = .ok (.br 0b010#3 0b111111101#9) ∧
  decode 0b1100_000_111_000000#16 = .ok .ret ∧
  decode 0b0100_1_00000010000#16 = .ok (.jsr 16#11) ∧
  decode 0b0100_0_00_011_000000#16 = .ok (.jsrr 3) ∧
  decode 0b1111_0000_00100101#16 = .ok .halt ∧
  decode 0b1000_000000000000#16 = .ok (.rti 0#12) ∧
  decode 0b0001_001_010_0_01_001#16 = .error .reservedBits

/-- R88, both sentences: decoding an encoded well-formed instruction gives it back with every operand, and
re-encoding what the spec's decoder accepts gives the word back. -/
def Obligations.DecodeAndEncodeAgree : Prop :=
  (∀ i : Instr, i.wf = true → decode (encode i) = .ok i) ∧
  (∀ (w : Word) (i : Instr), classify w = .ok i → encode i = w)

/-- Every word the decoder accepts has one canonical name: what it answers is well formed (log 10). -/
def Obligations.DecodedInstructionsAreWellFormed : Prop :=
  ∀ (w : Word) (i : Instr), decode w = .ok i → i.wf = true ∧ encode i = w

/-- R82, R83 and R84: at an instruction step the error kinds arise for exactly the words listed there. -/
def Obligations.InstructionErrorsArePreciselyTheListedWords : Prop :=
  ∀ (s : State) (w : Word), s.ready → s.memRead s.pc = w →
    ∃ t, step s = .next t ∧
      (t.status = .error .reservedBits w s.pc ↔
        ((w.extractLsb 15 12 = 0b0001#4 ∨ w.extractLsb 15 12 = 0b0101#4) ∧ w.extractLsb 5 5 = 0#1 ∧
          w.extractLsb 4 3 ≠ 0b00#2) ∨
        (w.extractLsb 15 12 = 0b1001#4 ∧ w.extractLsb 5 0 ≠ 0b111111#6) ∨
        (w.extractLsb 15 12 = 0b1100#4 ∧ (w.extractLsb 11 9 ≠ 0b000#3 ∨ w.extractLsb 5 0 ≠ 0b000000#6)) ∨
        (w.extractLsb 15 12 = 0b0100#4 ∧ w.extractLsb 11 11 = 0#1 ∧
          (w.extractLsb 10 9 ≠ 0b00#2 ∨ w.extractLsb 5 0 ≠ 0b000000#6)) ∨
        (w.extractLsb 15 12 = 0b1111#4 ∧ w.extractLsb 11 8 ≠ 0b0000#4)) ∧
      (t.status = .error .zeroBranchCondition w s.pc ↔
        w.extractLsb 15 12 = 0b0000#4 ∧ w.extractLsb 11 9 = 0b000#3) ∧
      (t.status = .error .rti w s.pc ↔ w.extractLsb 15 12 = 0b1000#4) ∧
      (t.status = .error .reservedOpcode w s.pc ↔ w.extractLsb 15 12 = 0b1101#4) ∧
      (t.status = .error .unknownTrapVector w s.pc ↔
        w.extractLsb 15 12 = 0b1111#4 ∧ w.extractLsb 11 8 = 0b0000#4 ∧
          ((w.extractLsb 7 0).toNat < 0x20 ∨ 0x25 < (w.extractLsb 7 0).toNat))

/-! The step -/

/-- R95, R96 and R106 for a word the decoder accepts: the step is the decoded instruction's meaning in the state
whose `pc` has been advanced past it, modulo 65536. -/
def Obligations.StepRunsTheDecodedInstruction : Prop :=
  ∀ (s : State) (i : Instr), s.ready → decode (s.memRead s.pc) = .ok i →
    step s = exec i { s with pc := s.pc + 1 }

/-- R99: when the spec's decoder yields an error kind, the step raises it and executes nothing of the instruction. -/
def Obligations.RejectedWordsRaiseAndExecuteNothing : Prop :=
  ∀ (s : State) (k : ErrorKind), s.ready → classify (s.memRead s.pc) = .error k →
    ∃ t, step s = .next t ∧ ErrorTaken k (s.memRead s.pc) s.pc s t

/-- R104: Halted and Error are terminal, the core takes no further step from them; and from every other state that
is not blocked on the console there is a step (R95, R153). -/
def Obligations.StepsExistExactlyWhileRunningAndNotBlocked : Prop :=
  ∀ s : State, (∃ t, step s = .next t) ↔ (s.status = .running ∧ ¬ s.blocked)

/-- R104 and R153 by name: an ended run has no step, and neither has a read to which no byte is supplied; one more
byte releases it. -/
def Obligations.EndedAndBlockedStatesStopByName : Prop :=
  (∀ s : State, s.status ≠ .running → step s = .fault .runEnded) ∧
  (∀ s : State, s.status = .running → s.blocked → step s = .fault .awaitingInput) ∧
  (∀ (s : State) (c : Byte), s.status = .running → s.blocked → ∃ t, step (s.supply [c]) = .next t ∧
    t.svc = .idle ∧ t.input = [])

/-- R102: a step ends the run as Halted only by HALT, the word 0xF025, and as Error only by an instruction error;
every other step leaves the core running. -/
def Obligations.RunsEndOnlyByHaltOrInstructionError : Prop :=
  ∀ s t : State, step s = .next t →
    (t.status = .halted ↔ s.ready ∧ s.memRead s.pc = 0xF025#16) ∧
    (∀ k w a, t.status = .error k w a ↔ s.ready ∧ w = s.memRead s.pc ∧ a = s.pc ∧ classify w = .error k)

/-! The operate instructions -/

/-- The completion, result and frame of ADD, AND and NOT as instructions, for every operand. -/
def Obligations.OperateInstructionsComplete : Prop :=
  (∀ (s : State) (dr sr1 sr2 : Reg), ∃ t, exec (.addReg dr sr1 sr2) s = .next t ∧
    RegisterResult dr (BitVec.ofNat 16 ((s.reg sr1).toNat + (s.reg sr2).toNat)) s.pc s t) ∧
  (∀ (s : State) (dr sr1 : Reg) (imm5 : BitVec 5), ∃ t, exec (.addImm dr sr1 imm5) s = .next t ∧
    RegisterResult dr (BitVec.ofInt 16 ((s.reg sr1).toInt + imm5.toInt)) s.pc s t) ∧
  (∀ (s : State) (dr sr1 sr2 : Reg), ∃ t, exec (.andReg dr sr1 sr2) s = .next t ∧
    RegisterResult dr (s.reg sr1 &&& s.reg sr2) s.pc s t) ∧
  (∀ (s : State) (dr sr1 : Reg) (imm5 : BitVec 5), ∃ t, exec (.andImm dr sr1 imm5) s = .next t ∧
    RegisterResult dr (s.reg sr1 &&& BitVec.ofInt 16 imm5.toInt) s.pc s t) ∧
  (∀ (s : State) (dr sr : Reg), ∃ t, exec (.not dr sr) s = .next t ∧
    RegisterResult dr (BitVec.ofNat 16 (65535 - (s.reg sr).toNat)) s.pc s t)

/-- R115 and R116: every word of opcode ADD. -/
def Obligations.AddWords : Prop :=
  ∀ (s : State) (ir : Word) (dr sr1 sr2 : Reg), s.ready → s.memRead s.pc = ir →
    ir.extractLsb 15 12 = 0b0001#4 → (ir.extractLsb 11 9).toNat = dr.val →
    (ir.extractLsb 8 6).toNat = sr1.val → (ir.extractLsb 2 0).toNat = sr2.val →
    ∃ t, step s = .next t ∧
      if ir.extractLsb 5 5 = 1#1 then
        RegisterResult dr (s.reg sr1 + BitVec.ofInt 16 (ir.extractLsb 4 0).toInt) (s.pc + 1) s t
      else if ir.extractLsb 4 3 = 0b00#2 then
        RegisterResult dr (s.reg sr1 + s.reg sr2) (s.pc + 1) s t
      else ErrorTaken .reservedBits ir s.pc s t

/-- R117 and R118: every word of opcode AND. -/
def Obligations.AndWords : Prop :=
  ∀ (s : State) (ir : Word) (dr sr1 sr2 : Reg), s.ready → s.memRead s.pc = ir →
    ir.extractLsb 15 12 = 0b0101#4 → (ir.extractLsb 11 9).toNat = dr.val →
    (ir.extractLsb 8 6).toNat = sr1.val → (ir.extractLsb 2 0).toNat = sr2.val →
    ∃ t, step s = .next t ∧
      if ir.extractLsb 5 5 = 1#1 then
        RegisterResult dr (s.reg sr1 &&& BitVec.ofInt 16 (ir.extractLsb 4 0).toInt) (s.pc + 1) s t
      else if ir.extractLsb 4 3 = 0b00#2 then
        RegisterResult dr (s.reg sr1 &&& s.reg sr2) (s.pc + 1) s t
      else ErrorTaken .reservedBits ir s.pc s t

/-- R119: every word of opcode NOT. -/
def Obligations.NotWords : Prop :=
  ∀ (s : State) (ir : Word) (dr sr : Reg), s.ready → s.memRead s.pc = ir →
    ir.extractLsb 15 12 = 0b1001#4 → (ir.extractLsb 11 9).toNat = dr.val →
    (ir.extractLsb 8 6).toNat = sr.val →
    ∃ t, step s = .next t ∧
      if ir.extractLsb 5 0 = 0b111111#6 then RegisterResult dr (~~~ s.reg sr) (s.pc + 1) s t
      else ErrorTaken .reservedBits ir s.pc s t

/-- The last sentence of R120: `NOT R, R` then `ADD R, R, #1` negates R, and `ADD R, R, R` shifts it left by one. -/
def Obligations.SoftwareNegationAndShift : Prop :=
  (∀ (s : State) (r : Reg), s.ready → decode (s.memRead s.pc) = .ok (.not r r) →
    decode (s.memRead (s.pc + 1)) = .ok (.addImm r r 1#5) →
    ∃ t, Host.Core.run Sys2Proof.core 2 s = .next t ∧ RegisterResult r (- s.reg r) (s.pc + 2) s t) ∧
  (∀ (s : State) (r : Reg), s.ready → decode (s.memRead s.pc) = .ok (.addReg r r r) →
    ∃ t, step s = .next t ∧ RegisterResult r (s.reg r <<< 1) (s.pc + 1) s t)

/-! Address, load and store -/

/-- The completion, result and frame of LEA, LD, LDI and LDR as instructions. -/
def Obligations.LoadInstructionsComplete : Prop :=
  (∀ (s : State) (dr : Reg) (off9 : BitVec 9), ∃ t, exec (.lea dr off9) s = .next t ∧
    RegisterOnly dr (s.pc + BitVec.ofInt 16 off9.toInt) s.pc s t) ∧
  (∀ (s : State) (dr : Reg) (off9 : BitVec 9), ∃ t, exec (.ld dr off9) s = .next t ∧
    RegisterResult dr (s.memRead (s.pc + BitVec.ofInt 16 off9.toInt)) s.pc s t) ∧
  (∀ (s : State) (dr : Reg) (off9 : BitVec 9), ∃ t, exec (.ldi dr off9) s = .next t ∧
    RegisterResult dr (s.memRead (s.memRead (s.pc + BitVec.ofInt 16 off9.toInt))) s.pc s t) ∧
  (∀ (s : State) (dr base : Reg) (off6 : BitVec 6), ∃ t, exec (.ldr dr base off6) s = .next t ∧
    RegisterResult dr (s.memRead (s.reg base + BitVec.ofInt 16 off6.toInt)) s.pc s t)

/-- The completion, store and frame of ST, STI and STR as instructions, the address computed with the functions
the meanings use. -/
def Obligations.StoreInstructionsComplete : Prop :=
  (∀ (s : State) (sr : Reg) (off9 : BitVec 9), ∃ t, exec (.st sr off9) s = .next t ∧
    WordStored (s.pcRel off9) (s.reg sr) s.pc s t) ∧
  (∀ (s : State) (sr : Reg) (off9 : BitVec 9), ∃ t, exec (.sti sr off9) s = .next t ∧
    WordStored (s.indirect off9) (s.reg sr) s.pc s t) ∧
  (∀ (s : State) (sr base : Reg) (off6 : BitVec 6), ∃ t, exec (.str sr base off6) s = .next t ∧
    WordStored (s.baseOff base off6) (s.reg sr) s.pc s t)

/-- R125: every word of opcode LEA. The condition code is not written. -/
def Obligations.LeaWords : Prop :=
  ∀ (s : State) (ir : Word) (dr : Reg), s.ready → s.memRead s.pc = ir →
    ir.extractLsb 15 12 = 0b1110#4 → (ir.extractLsb 11 9).toNat = dr.val →
    ∃ t, step s = .next t ∧
      RegisterOnly dr (s.pc + 1 + BitVec.ofInt 16 (ir.extractLsb 8 0).toInt) (s.pc + 1) s t

/-- R126, R127 and R128: every word of opcodes LD, LDI and LDR. -/
def Obligations.LoadWords : Prop :=
  ∀ (s : State) (ir ea : Word) (dr base : Reg), s.ready → s.memRead s.pc = ir →
    (ir.extractLsb 11 9).toNat = dr.val → (ir.extractLsb 8 6).toNat = base.val →
    (ir.extractLsb 15 12 = 0b0010#4 ∧ ea = s.pc + 1 + BitVec.ofInt 16 (ir.extractLsb 8 0).toInt ∨
     ir.extractLsb 15 12 = 0b1010#4 ∧ ea = s.memRead (s.pc + 1 + BitVec.ofInt 16 (ir.extractLsb 8 0).toInt) ∨
     ir.extractLsb 15 12 = 0b0110#4 ∧ ea = s.reg base + BitVec.ofInt 16 (ir.extractLsb 5 0).toInt) →
    ∃ t, step s = .next t ∧ RegisterResult dr (s.memRead ea) (s.pc + 1) s t

/-- R129, R130 and R131: every word of opcodes ST, STI and STR. -/
def Obligations.StoreWords : Prop :=
  ∀ (s : State) (ir ea : Word) (sr base : Reg), s.ready → s.memRead s.pc = ir →
    (ir.extractLsb 11 9).toNat = sr.val → (ir.extractLsb 8 6).toNat = base.val →
    (ir.extractLsb 15 12 = 0b0011#4 ∧ ea = s.pc + 1 + BitVec.ofInt 16 (ir.extractLsb 8 0).toInt ∨
     ir.extractLsb 15 12 = 0b1011#4 ∧ ea = s.memRead (s.pc + 1 + BitVec.ofInt 16 (ir.extractLsb 8 0).toInt) ∨
     ir.extractLsb 15 12 = 0b0111#4 ∧ ea = s.reg base + BitVec.ofInt 16 (ir.extractLsb 5 0).toInt) →
    ∃ t, step s = .next t ∧ WordStored ea (s.reg sr) (s.pc + 1) s t

/-- R59: the word fetched after a store is the stored one where the store went there, and otherwise the word that
was there; the executing instruction is the word fetched before the store. -/
def Obligations.StoresAreSeenByTheNextFetch : Prop :=
  ∀ (s : State) (i : Instr) (ea v : Word), s.ready → decode (s.memRead s.pc) = .ok i →
    storesTo { s with pc := s.pc + 1 } i = some (ea, v) →
    ∃ t, step s = .next t ∧ t.ready ∧ t.pc = s.pc + 1 ∧
      t.memRead t.pc = (if ea = s.pc + 1 then v else s.memRead (s.pc + 1)) ∧
      (∀ j, decode (t.memRead t.pc) = .ok j → step t = exec j { t with pc := t.pc + 1 })

/-- Two memories in canonical form that read alike at every address are the same list (log 1). -/
def Obligations.CanonicalMemoriesThatReadAlikeAreEqual : Prop :=
  ∀ m m' : Memory, Memory.wf m = true → Memory.wf m' = true →
    (∀ a : Word, Memory.read m a = Memory.read m' a) → m = m'

/-! Control transfer -/

/-- The completion, target and frame of BR (with a condition), JMP, RET, JSR and JSRR as instructions. -/
def Obligations.ControlTransfersComplete : Prop :=
  (∀ (s : State) (nzp : BitVec 3) (off9 : BitVec 9), nzp ≠ 0b000#3 → ∃ t, exec (.br nzp off9) s = .next t ∧
    OnlyJumped (if (s.cc = .n ∧ nzp.getLsbD 2 = true) ∨ (s.cc = .z ∧ nzp.getLsbD 1 = true) ∨
        (s.cc = .p ∧ nzp.getLsbD 0 = true)
      then s.pc + BitVec.ofInt 16 off9.toInt else s.pc) s t) ∧
  (∀ (s : State) (base : Reg), ∃ t, exec (.jmp base) s = .next t ∧ OnlyJumped (s.reg base) s t) ∧
  (∀ s : State, ∃ t, exec .ret s = .next t ∧ OnlyJumped (s.reg 7) s t) ∧
  (∀ (s : State) (off11 : BitVec 11), ∃ t, exec (.jsr off11) s = .next t ∧
    RegisterOnly 7 s.pc (s.pc + BitVec.ofInt 16 off11.toInt) s t) ∧
  (∀ (s : State) (base : Reg), ∃ t, exec (.jsrr base) s = .next t ∧
    RegisterOnly 7 s.pc (if base = 7 ∧ Config.jsrrLinkOrder = .linkFirst then s.pc else s.reg base) s t)

/-- R140: every word of opcode BR; the branch is taken in exactly the cc states whose bit is set. -/
def Obligations.BranchWords : Prop :=
  ∀ (s : State) (ir : Word), s.ready → s.memRead s.pc = ir → ir.extractLsb 15 12 = 0b0000#4 →
    ∃ t, step s = .next t ∧
      if ir.extractLsb 11 9 = 0b000#3 then ErrorTaken .zeroBranchCondition ir s.pc s t
      else if (s.cc = .n ∧ ir.getLsbD 11 = true) ∨ (s.cc = .z ∧ ir.getLsbD 10 = true) ∨
          (s.cc = .p ∧ ir.getLsbD 9 = true)
        then OnlyJumped (s.pc + 1 + BitVec.ofInt 16 (ir.extractLsb 8 0).toInt) s t
      else OnlyJumped (s.pc + 1) s t

/-- R141: every word of opcode JMP, RET among them. -/
def Obligations.JmpAndRetWords : Prop :=
  ∀ (s : State) (ir : Word) (base : Reg), s.ready → s.memRead s.pc = ir →
    ir.extractLsb 15 12 = 0b1100#4 → (ir.extractLsb 8 6).toNat = base.val →
    ∃ t, step s = .next t ∧
      if ir.extractLsb 11 9 = 0b000#3 ∧ ir.extractLsb 5 0 = 0b000000#6 then OnlyJumped (s.reg base) s t
      else ErrorTaken .reservedBits ir s.pc s t

/-- R142: every JSR word. -/
def Obligations.JsrWords : Prop :=
  ∀ (s : State) (ir : Word), s.ready → s.memRead s.pc = ir →
    ir.extractLsb 15 12 = 0b0100#4 → ir.extractLsb 11 11 = 1#1 →
    ∃ t, step s = .next t ∧
      RegisterOnly 7 (s.pc + 1) (s.pc + 1 + BitVec.ofInt 16 (ir.extractLsb 10 0).toInt) s t

/-- R143: every JSRR word, in either order of the open parameter; the orders differ only for JSRR R7. -/
def Obligations.JsrrWords : Prop :=
  ∀ (s : State) (ir : Word) (base : Reg), s.ready → s.memRead s.pc = ir →
    ir.extractLsb 15 12 = 0b0100#4 → ir.extractLsb 11 11 = 0#1 → (ir.extractLsb 8 6).toNat = base.val →
    ∃ t, step s = .next t ∧
      if ir.extractLsb 10 9 = 0b00#2 ∧ ir.extractLsb 5 0 = 0b000000#6 then
        RegisterOnly 7 (s.pc + 1)
          (match Config.jsrrLinkOrder with
            | .baseFirst => s.reg base
            | .linkFirst => if base = 7 then s.pc + 1 else s.reg base) s t
      else ErrorTaken .reservedBits ir s.pc s t

/-- JSR then RET at its target returns to the instruction after the JSR (95_test_vectors.md S5). -/
def Obligations.JsrThenRetReturns : Prop :=
  ∀ (s : State) (off11 : BitVec 11), s.ready → decode (s.memRead s.pc) = .ok (.jsr off11) →
    s.memRead (s.pc + 1 + BitVec.ofInt 16 off11.toInt) = 0xC1C0#16 →
    ∃ t, Host.Core.run Sys2Proof.core 2 s = .next t ∧ RegisterOnly 7 (s.pc + 1) (s.pc + 1) s t

/-- R107: BRnzp to itself, the word 0x0FFF, runs forever in the same state, and no run from it fails. -/
def Obligations.SelfBranchRunsForever : Prop :=
  ∀ s : State, s.ready → s.memRead s.pc = 0x0FFF#16 →
    (∀ n, Host.Core.run Sys2Proof.core n s = .next s) ∧ (∀ t, Reaches s t → t = s) ∧ SafeFrom s

/-- R25: how every step that raises no error leaves `pc`. -/
def Obligations.ProgramCounterAfterEveryStep : Prop :=
  ∀ s t : State, step s = .next t → ¬ t.failed →
    (s.svc ≠ .idle → t.pc = s.pc) ∧
    (s.svc = .idle → ∀ i, decode (s.memRead s.pc) = .ok i →
      t.pc = match i with
        | .br nzp off9 =>
          if s.cc.enc &&& nzp = 0b000#3 then s.pc + 1 else s.pc + 1 + off9.signExtend 16
        | .jmp base => s.reg base
        | .ret => s.reg 7
        | .jsr off11 => s.pc + 1 + off11.signExtend 16
        | .jsrr base =>
          if base = 7 ∧ Config.jsrrLinkOrder = .linkFirst then s.pc + 1 else s.reg base
        | _ => s.pc + 1)

/-! TRAP and the services -/

/-- The completion of the six service instructions, each with all it changes. IN's leading line feed, the line-start
bit and the flushes of IN and HALT are as the spec decides (R31, R152, R161, R163: D12, log 19); the count of
unflushed bytes is the model's (log 7). -/
def Obligations.ServiceInstructionsComplete : Prop :=
  ∀ s : State,
    (∃ t, exec .getc s = .next t ∧ ServiceFrame s t ∧ t.pc = s.pc ∧ t.svc = .waitGetc ∧ SameConsole s t) ∧
    (∃ t, exec .out s = .next t ∧ ServiceFrame s t ∧ t.pc = s.pc ∧ t.svc = s.svc ∧
      t.out = s.out ++ [(s.reg 0).extractLsb 7 0] ∧ t.unflushed = 0 ∧
      (t.lastNL = true ↔ (s.reg 0).extractLsb 7 0 = 0x0A#8)) ∧
    (∃ t, exec .puts s = .next t ∧ ServiceFrame s t ∧ t.pc = s.pc ∧ t.svc = .puts (s.reg 0) ∧
      SameConsole s t) ∧
    (∃ t, exec .in_ s = .next t ∧ ServiceFrame s t ∧ t.pc = s.pc ∧ t.svc = .waitIn ∧
      t.out = s.out ++ (if s.lastNL = true then [] else [0x0A#8]) ++ Config.inPrompt ∧ t.unflushed = 0 ∧
      t.lastNL = lineStart Config.inPrompt) ∧
    (∃ t, exec .putsp s = .next t ∧ ServiceFrame s t ∧ t.pc = s.pc ∧ t.svc = .putsp (s.reg 0) ∧
      SameConsole s t) ∧
    (∃ t, exec .halt s = .next t ∧ t.status = .halted ∧ SameMemory s t ∧ SameRegs s t ∧ t.cc = s.cc ∧
      t.pc = s.pc ∧ t.svc = s.svc ∧ t.out = s.out ∧ t.unflushed = 0 ∧ t.lastNL = s.lastNL ∧
      t.input = s.input ∧ t.draws = s.draws)

/-- TRAP as an instruction: each of the six vectors is its service, and every other vector raises its error. -/
def Obligations.TrapDispatchesByVector : Prop :=
  ∀ (s : State) (v : BitVec 8), ∃ t, exec (.trap v) s = .next t ∧
    (v = 0x20#8 → exec .getc s = .next t) ∧ (v = 0x21#8 → exec .out s = .next t) ∧
    (v = 0x22#8 → exec .puts s = .next t) ∧ (v = 0x23#8 → exec .in_ s = .next t) ∧
    (v = 0x24#8 → exec .putsp s = .next t) ∧ (v = 0x25#8 → exec .halt s = .next t) ∧
    ((v.toNat < 0x20 ∨ 0x25 < v.toNat) →
      ErrorTaken .unknownTrapVector (0xF000#16 + v.setWidth 16) (s.pc - 1) s t)

/-- R150: every word of opcode TRAP. -/
def Obligations.TrapWords : Prop :=
  ∀ (s : State) (ir : Word), s.ready → s.memRead s.pc = ir → ir.extractLsb 15 12 = 0b1111#4 →
    ∃ t, step s = .next t ∧
      if ir.extractLsb 11 8 ≠ 0b0000#4 then ErrorTaken .reservedBits ir s.pc s t
      else match (ir.extractLsb 7 0).toNat with
        | 0x20 => exec .getc { s with pc := s.pc + 1 } = .next t
        | 0x21 => exec .out { s with pc := s.pc + 1 } = .next t
        | 0x22 => exec .puts { s with pc := s.pc + 1 } = .next t
        | 0x23 => exec .in_ { s with pc := s.pc + 1 } = .next t
        | 0x24 => exec .putsp { s with pc := s.pc + 1 } = .next t
        | 0x25 => exec .halt { s with pc := s.pc + 1 } = .next t
        | _ => ErrorTaken .unknownTrapVector ir s.pc s t

/-- R155 and R156: GETC waits, and its completion puts the byte in R0's low byte and nothing on the console, for
either value of READ_HIGH_BYTE. -/
def Obligations.GetcReadsOneByteWithoutEcho : Prop :=
  (∀ s : State, s.ready → s.memRead s.pc = 0xF020#16 → ∃ t, step s = .next t ∧ ServiceFrame s t ∧
    t.pc = s.pc + 1 ∧ t.svc = .waitGetc ∧ SameConsole s t) ∧
  (∀ (s : State) (c : Byte) (rest : List Byte), s.status = .running → s.svc = .waitGetc →
    s.input = c :: rest → ∃ t, step s = .next t ∧ t.svc = .idle ∧ t.input = rest ∧
      (t.reg 0).extractLsb 7 0 = c ∧
      (t.reg 0).extractLsb 15 8 =
        (match Config.readHighByte with
          | .zero => 0x00#8
          | .preserve => (s.reg 0).extractLsb 15 8) ∧
      SameRegsBut 0 s t ∧ SameMemory s t ∧ t.cc = s.cc ∧ t.pc = s.pc ∧ t.out = s.out ∧
      t.unflushed = s.unflushed ∧ t.lastNL = s.lastNL ∧ t.status = s.status ∧ t.draws = s.draws)

/-- R157, with R152: OUT writes the low byte of R0 and flushes, in the TRAP step itself. The count of unflushed bytes
is the model's (log 7), and the line-start bit is the spec's decision (D12, log 19). -/
def Obligations.OutWritesTheLowByteOfR0 : Prop :=
  ∀ s : State, s.ready → s.memRead s.pc = 0xF021#16 → ∃ t, step s = .next t ∧ ServiceFrame s t ∧
    t.pc = s.pc + 1 ∧ t.svc = .idle ∧ t.out = s.out ++ [(s.reg 0).extractLsb 7 0] ∧ t.unflushed = 0 ∧
    (t.lastNL = true ↔ (s.reg 0).extractLsb 7 0 = 0x0A#8)

/-- R159: the micro-step of PUTS. -/
def Obligations.PutsMicroStep : Prop :=
  ∀ (s : State) (a : Word), s.status = .running → s.svc = .puts a →
    ∃ t, step s = .next t ∧ ServiceFrame s t ∧ t.pc = s.pc ∧
      if (s.memRead a).extractLsb 7 0 = 0x00#8 then
        t.svc = .idle ∧ t.out = s.out ∧ t.unflushed = 0 ∧ t.lastNL = s.lastNL
      else
        t.svc = .puts (a + 1) ∧ t.out = s.out ++ [(s.memRead a).extractLsb 7 0] ∧
        t.unflushed = s.unflushed + 1 ∧ (t.lastNL = true ↔ (s.memRead a).extractLsb 7 0 = 0x0A#8)

/-- R166: the micro-step of PUTSP. -/
def Obligations.PutspMicroStep : Prop :=
  ∀ (s : State) (a : Word), s.status = .running → s.svc = .putsp a →
    ∃ t, step s = .next t ∧ ServiceFrame s t ∧ t.pc = s.pc ∧
      if (s.memRead a).extractLsb 7 0 = 0x00#8 then
        t.svc = .idle ∧ t.out = s.out ∧ t.unflushed = 0 ∧ t.lastNL = s.lastNL
      else if (s.memRead a).extractLsb 15 8 = 0x00#8 then
        t.svc = .idle ∧ t.out = s.out ++ [(s.memRead a).extractLsb 7 0] ∧ t.unflushed = 0 ∧
        (t.lastNL = true ↔ (s.memRead a).extractLsb 7 0 = 0x0A#8)
      else
        t.svc = .putsp (a + 1) ∧
        t.out = s.out ++ [(s.memRead a).extractLsb 7 0, (s.memRead a).extractLsb 15 8] ∧
        t.unflushed = s.unflushed + 2 ∧ (t.lastNL = true ↔ (s.memRead a).extractLsb 15 8 = 0x0A#8)

/-- R163 and R164: IN puts its prompt on its own line and waits; its completion echoes the byte, prints the suffix
and puts the byte in R0's low byte, for every value of the parameters. -/
def Obligations.InPromptsReadsAndEchoes : Prop :=
  (∀ s : State, s.ready → s.memRead s.pc = 0xF023#16 → ∃ t, step s = .next t ∧ ServiceFrame s t ∧
    t.pc = s.pc + 1 ∧ t.svc = .waitIn ∧
    t.out = s.out ++ (if s.lastNL = true then [] else [0x0A#8]) ++ Config.inPrompt ∧ t.unflushed = 0 ∧
    t.lastNL = lineStart Config.inPrompt) ∧
  (∀ (s : State) (c : Byte) (rest : List Byte), s.status = .running → s.svc = .waitIn →
    s.input = c :: rest → ∃ t, step s = .next t ∧ t.svc = .idle ∧ t.input = rest ∧
      (t.reg 0).extractLsb 7 0 = c ∧
      (t.reg 0).extractLsb 15 8 =
        (match Config.readHighByte with
          | .zero => 0x00#8
          | .preserve => (s.reg 0).extractLsb 15 8) ∧
      t.out = s.out ++ [c] ++ Config.inEchoSuffix ∧ t.unflushed = 0 ∧
      t.lastNL = lineStart (c :: Config.inEchoSuffix) ∧
      SameRegsBut 0 s t ∧ SameMemory s t ∧ t.cc = s.cc ∧ t.pc = s.pc ∧ t.status = s.status ∧
      t.draws = s.draws)

/-- R167: HALT flushes and ends the run, with `pc` at its address plus 1 and nothing else written. That HALT leaves
nothing unflushed is the spec's reading (R161: D12, log 19), and the count of unflushed bytes is the model's
(log 7). -/
def Obligations.HaltEndsTheRunCleanly : Prop :=
  ∀ s : State, s.ready → s.memRead s.pc = 0xF025#16 → ∃ t, step s = .next t ∧ t.status = .halted ∧
    t.unflushed = 0 ∧ t.pc = s.pc + 1 ∧ SameRegs s t ∧ SameMemory s t ∧ t.cc = s.cc ∧ t.out = s.out ∧
    t.lastNL = s.lastNL ∧ t.input = s.input ∧ t.svc = s.svc ∧ t.draws = s.draws ∧
    t.status.exitCode = some 0

/-- R158: a whole PUTS. From the TRAP word on, it emits the low byte of each word from R0 on up to the first zero
low byte, whatever the high bytes are, then flushes and is done; the address wraps. -/
def Obligations.PutsPrintsAZeroTerminatedString : Prop :=
  ∀ (s : State) (bs : List Byte), s.ready → s.memRead s.pc = 0xF022#16 →
    (∀ i (h : i < bs.length), (s.memRead (s.reg 0 + BitVec.ofNat 16 i)).extractLsb 7 0 = bs[i] ∧
      bs[i] ≠ 0x00#8) →
    (s.memRead (s.reg 0 + BitVec.ofNat 16 bs.length)).extractLsb 7 0 = 0x00#8 →
    ∃ t, Host.Core.run Sys2Proof.core (bs.length + 2) s = .next t ∧ ServiceFrame s t ∧
      t.pc = s.pc + 1 ∧ t.svc = .idle ∧ t.out = s.out ++ bs ∧ t.unflushed = 0

/-- R165: a whole PUTSP. It emits the packed bytes from R0 on, low byte then high byte, up to the first zero byte
in either position, then flushes and is done. -/
def Obligations.PutspPrintsAPackedString : Prop :=
  ∀ (s : State) (bs : List Byte), s.ready → s.memRead s.pc = 0xF024#16 →
    (∀ i (h : i < bs.length), packedByte s (s.reg 0) i = bs[i] ∧ bs[i] ≠ 0x00#8) →
    packedByte s (s.reg 0) bs.length = 0x00#8 →
    ∃ t, Host.Core.run Sys2Proof.core (bs.length / 2 + 2) s = .next t ∧ ServiceFrame s t ∧
      t.pc = s.pc + 1 ∧ t.svc = .idle ∧ t.out = s.out ++ bs ∧ t.unflushed = 0

/-- R160: PUTS with no zero low byte in memory never ends and emits one byte a step forever. That its address wraps
is the spec's decision (D13, log 20). -/
def Obligations.PutsWithoutTerminatorNeverEnds : Prop :=
  ∀ (s : State) (a : Word), s.status = .running → s.svc = .puts a →
    (∀ b : Word, (s.memRead b).extractLsb 7 0 ≠ 0x00#8) →
    ∀ n, ∃ t, Host.Core.run Sys2Proof.core n s = .next t ∧ t.status = .running ∧
      t.svc = .puts (a + BitVec.ofNat 16 n) ∧ t.out.length = s.out.length + n

/-- R154: while a service is in progress no instruction is fetched, so where `pc` points makes no difference. -/
def Obligations.ServiceMicroStepsFetchNothing : Prop :=
  ∀ (s t : State) (p : Word), s.svc ≠ .idle → step s = .next t →
    step { s with pc := p } = .next { t with pc := p }

/-! Instruction errors -/

/-- RTI, the reserved opcode, BR with no condition and TRAP with an unknown vector, all the forms of `Instr.invalid`,
as instructions: each takes its instruction error and nothing else of it happens (D7, log 13). The word and the
address recorded are the instruction's encoding and one below `pc` (log 11). -/
def Obligations.InvalidInstructionsTakeTheirError : Prop :=
  (∀ (s : State) (low12 : BitVec 12), ∃ t, exec (.rti low12) s = .next t ∧
    ErrorTaken .rti (0x8000#16 + low12.setWidth 16) (s.pc - 1) s t) ∧
  (∀ (s : State) (low12 : BitVec 12), ∃ t, exec (.reserved low12) s = .next t ∧
    ErrorTaken .reservedOpcode (0xD000#16 + low12.setWidth 16) (s.pc - 1) s t) ∧
  (∀ (s : State) (off9 : BitVec 9), ∃ t, exec (.br 0b000#3 off9) s = .next t ∧
    ErrorTaken .zeroBranchCondition (off9.setWidth 16) (s.pc - 1) s t) ∧
  (∀ (s : State) (v : BitVec 8), (v.toNat < 0x20 ∨ 0x25 < v.toNat) → ∃ t, exec (.trap v) s = .next t ∧
    ErrorTaken .unknownTrapVector (0xF000#16 + v.setWidth 16) (s.pc - 1) s t)

/-- R175 and R176: every word of opcodes 0b1000 and 0b1101. -/
def Obligations.RtiAndReservedWordsAlwaysErr : Prop :=
  ∀ (s : State) (ir : Word), s.ready → s.memRead s.pc = ir →
    (ir.extractLsb 15 12 = 0b1000#4 → ∃ t, step s = .next t ∧ ErrorTaken .rti ir s.pc s t) ∧
    (ir.extractLsb 15 12 = 0b1101#4 → ∃ t, step s = .next t ∧ ErrorTaken .reservedOpcode ir s.pc s t)

/-- R184, and the numbers of R182: what the host reports. -/
def Obligations.ExitAndErrorCodes : Prop :=
  (∀ st : Status, st.exitCode = some 0 ↔ st = .halted) ∧
  (∀ st : Status, st.exitCode = some 3 ↔ ∃ k w a, st = .error k w a) ∧
  (∀ st : Status, st.exitCode = none ↔ st = .running) ∧
  (∀ e : ImageError, e.exitCode = 2) ∧
  errorCode .reservedBits = 1 ∧ errorCode .zeroBranchCondition = 2 ∧ errorCode .rti = 3 ∧
  errorCode .reservedOpcode = 4 ∧ errorCode .unknownTrapVector = 5

/-! Rules of the whole machine -/

/-- R22: a step changes a general register only where the fetched instruction is one of the listed writers of it,
or a console read completes into R0. -/
def Obligations.OnlyTheListedWritersChangeARegister : Prop :=
  ∀ (s t : State) (r : Reg), step s = .next t → t.reg r ≠ s.reg r →
    (s.svc = .idle ∧ ∃ i, decode (s.memRead s.pc) = .ok i ∧ writesReg i = some r) ∨
    ((s.svc = .waitGetc ∨ s.svc = .waitIn) ∧ r = 0)

/-- R101, with R28 and R29: reset state Z; a step of one of the six instructions goes to the flag of the value it
wrote to DR, from any state; every other step leaves the condition code. That a step which raises an instruction
error leaves it too is the spec's decision (R99, R103: D7, log 13), and R29 is the spec's own derivation. -/
def Obligations.ConditionCodeStateMachine : Prop :=
  State.reset.cc = .z ∧
  ∀ s t : State, step s = .next t →
    (s.svc = .idle → ∀ i dr, decode (s.memRead s.pc) = .ok i → setsCc i = some dr →
      SignFlag (t.reg dr) t.cc) ∧
    ((s.svc ≠ .idle ∨ ∀ i, decode (s.memRead s.pc) = .ok i → setsCc i = none) → t.cc = s.cc)

/-- R47 during execution: a step changes a word of memory only where the fetched instruction is ST, STI or STR and
stores to that address. -/
def Obligations.OnlyStoresChangeMemory : Prop :=
  ∀ (s t : State) (a : Word), step s = .next t → t.memRead a ≠ s.memRead a →
    s.svc = .idle ∧ ∃ i, decode (s.memRead s.pc) = .ok i ∧
      storesTo { s with pc := s.pc + 1 } i = some (a, t.memRead a)

/-- R151: the core only appends to the console output, and what was output before (but for the line-start bit)
has no influence on a step. -/
def Obligations.ConsoleOutputIsAppendOnlyAndUnread : Prop :=
  ∀ (s t : State) (o : List Byte) (u : Nat), step s = .next t →
    ∃ bs t', t.out = s.out ++ bs ∧ step { s with out := o, unflushed := u } = .next t' ∧
      t'.out = o ++ bs ∧ { t' with out := t.out, unflushed := t.unflushed } = t

/-- R108: bytes that the host supplies later never change a step that exists already. -/
def Obligations.LaterInputDoesNotChangeAStep : Prop :=
  ∀ (s t : State) (bs : List Byte), step s = .next t → step (s.supply bs) = .next (t.supply bs)

/-- R161, with R151: a step never leaves a byte unflushed where the core then waits, ends, or fetches. -/
def Obligations.OutputIsFlushedBeforeWaitingFetchingOrEnding : Prop :=
  ∀ s t : State, step s = .next t →
    ((∀ a, s.svc ≠ .puts a) → (∀ a, s.svc ≠ .putsp a) → s.unflushed = 0) →
    (∀ a, t.svc ≠ .puts a) → (∀ a, t.svc ≠ .putsp a) → t.unflushed = 0

/-! The invariant -/

/-- Every step keeps the invariant: canonical memory, a true line-start bit, output flushed but while a string is
being printed, no service in progress when the run has ended, and a true error record. -/
def Obligations.EveryStepKeepsTheInvariant : Prop :=
  ∀ s t : State, s.Inv → step s = .next t → t.Inv

/-- The invariant holds at reset. -/
def Obligations.ResetSatisfiesTheInvariant : Prop :=
  State.reset.Inv

/-- Every state a run reaches from an accepted image, whatever console bytes the host supplies, satisfies the
invariant. The bytes stand in the queue from the start (log 5); that they could as well come later is
`LaterInputDoesNotChangeAStep` (R108, R153). -/
def Obligations.RunsOfLoadedImagesKeepTheInvariant : Prop :=
  ∀ (img bs : List Byte) (s t : State), loadImage img = .ok s → Reaches (s.supply bs) t → t.Inv

/-! Reset and the image loader -/

/-- What reset leaves, of the values the spec gives (R36, R205); `pc` is the image's and is in the next statement.
Status, sequencer and line-start bit are the spec's decisions (D7, D11, D12; logs 13, 16, 19). -/
def Obligations.ResetLeavesTheStatedValues : Prop :=
  (∀ r : Reg, State.reset.reg r = 0x0000#16) ∧ State.reset.cc = .z ∧
  (∀ a : Word, State.reset.memRead a = 0x0000#16) ∧ State.reset.status = .running ∧
  State.reset.svc = .idle ∧ State.reset.lastNL = true ∧ State.reset.out = []

/-- R36, R205, R206 and R207: what an accepted image leaves: `pc` at the big-endian origin, each payload word at its
address, 0x0000 everywhere else, and the reset values. That the status is Running, the sequencer idle and the
line-start bit true are the spec's decisions (R36: D7, D11, D12; logs 13, 16, 19). -/
def Obligations.AcceptedImageLeavesTheStatedState : Prop :=
  ∀ (img : List Byte) (s : State), loadImage img = .ok s →
    s.pc.toNat = (img.getD 0 0).toNat * 256 + (img.getD 1 0).toNat ∧
    (∀ a : Word, (s.memRead a).toNat =
      if s.pc.toNat ≤ a.toNat ∧ a.toNat < s.pc.toNat + (img.length / 2 - 1) then
        (img.getD (2 * (a.toNat - s.pc.toNat) + 2) 0).toNat * 256 +
          (img.getD (2 * (a.toNat - s.pc.toNat) + 3) 0).toNat
      else 0) ∧
    (∀ r : Reg, s.reg r = 0x0000#16) ∧ s.cc = .z ∧ s.status = .running ∧ s.svc = .idle ∧
    s.lastNL = true ∧ s.out = []

/-- R208: the images that are accepted. -/
def Obligations.ImagesAcceptedExactly : Prop :=
  ∀ img : List Byte,
    ((∃ s, loadImage img = .ok s) ↔
      img.length % 2 = 0 ∧ 1 ≤ img.length / 2 - 1 ∧
      (img.getD 0 0).toNat * 256 + (img.getD 1 0).toNat + (img.length / 2 - 1) ≤ 65536) ∧
    (∀ e, loadImage img = .error e → e.exitCode = 2)
end

