-- ==== Sys2Proof/Laws/Decode.lean ====
section
/-! SUPPORT. The small lemmas of the encoding tables. -/

namespace Sys2Proof

@[simp] theorem regOfBits_regBits (r : Reg) : regOfBits (regBits r) = r := by
  revert r; decide

@[simp] theorem regBits_regOfBits (b : BitVec 3) : regBits (regOfBits b) = b := by
  revert b; decide

@[simp] theorem Opcode.ofBits_bits (o : Opcode) : Opcode.ofBits o.bits = o := by
  cases o <;> rfl

@[simp] theorem Opcode.bits_ofBits (b : BitVec 4) : (Opcode.ofBits b).bits = b := by
  revert b; decide

@[simp] theorem Service.ofVector_vector (v : Service) : Service.ofVector v.vector = some v := by
  cases v <;> rfl

/-- The vectors of the six services are 0x20 to 0x25 and no others (R150). -/
theorem Service.ofVector_eq_none_iff (v : BitVec 8) :
    Service.ofVector v = none ↔ v < 0x20#8 ∨ 0x25#8 < v := by
  revert v; decide

theorem regBits_eq_seven_iff (r : Reg) : regBits r = 0b111#3 ↔ r = 7 := by
  revert r; decide

/-! The fields of a word in each format -/

/-! Format of R69 -/

@[simp] theorem field_wordOpr_op (op : Opcode) (dr sr1 sr2 : Reg) :
    field (wordOpr op dr sr1 sr2) 15 12 = op.bits := by
  simp [field, wordOpr, BitVec.extractLsb, BitVec.extractLsb'_append_eq_ite (v := 13) (w := 3),
    BitVec.extractLsb'_append_eq_ite (v := 10) (w := 3),
    BitVec.extractLsb'_append_eq_ite (v := 7) (w := 3),
    BitVec.extractLsb'_append_eq_ite (v := 4) (w := 3)]

@[simp] theorem field_wordOpr_dr (op : Opcode) (dr sr1 sr2 : Reg) :
    field (wordOpr op dr sr1 sr2) 11 9 = regBits dr := by
  simp [field, wordOpr, BitVec.extractLsb, BitVec.extractLsb'_append_eq_ite (v := 13) (w := 3),
    BitVec.extractLsb'_append_eq_ite (v := 10) (w := 3),
    BitVec.extractLsb'_append_eq_ite (v := 7) (w := 3),
    BitVec.extractLsb'_append_eq_ite (v := 4) (w := 3)]

@[simp] theorem field_wordOpr_sr1 (op : Opcode) (dr sr1 sr2 : Reg) :
    field (wordOpr op dr sr1 sr2) 8 6 = regBits sr1 := by
  simp [field, wordOpr, BitVec.extractLsb, BitVec.extractLsb'_append_eq_ite (v := 13) (w := 3),
    BitVec.extractLsb'_append_eq_ite (v := 10) (w := 3),
    BitVec.extractLsb'_append_eq_ite (v := 7) (w := 3)]

@[simp] theorem field_wordOpr_mode (op : Opcode) (dr sr1 sr2 : Reg) :
    field (wordOpr op dr sr1 sr2) 5 5 = 0b0#1 := by
  simp [field, wordOpr, BitVec.extractLsb, BitVec.extractLsb'_append_eq_ite (v := 13) (w := 3),
    BitVec.extractLsb'_append_eq_ite (v := 10) (w := 3)]

@[simp] theorem field_wordOpr_padding (op : Opcode) (dr sr1 sr2 : Reg) :
    field (wordOpr op dr sr1 sr2) 4 3 = 0b00#2 := by
  simp [field, wordOpr, BitVec.extractLsb, BitVec.extractLsb'_append_eq_ite (v := 13) (w := 3),
    BitVec.extractLsb'_append_eq_ite (v := 10) (w := 3)]

@[simp] theorem field_wordOpr_sr2 (op : Opcode) (dr sr1 sr2 : Reg) :
    field (wordOpr op dr sr1 sr2) 2 0 = regBits sr2 := by
  simp [field, wordOpr, BitVec.extractLsb, BitVec.extractLsb'_append_eq_ite (v := 13) (w := 3)]

/-! Format of R70 -/

@[simp] theorem field_wordOpi_op (op : Opcode) (dr sr1 : Reg) (imm5 : BitVec 5) :
    field (wordOpi op dr sr1 imm5) 15 12 = op.bits := by
  simp [field, wordOpi, BitVec.extractLsb, BitVec.extractLsb'_append_eq_ite (v := 11) (w := 5),
    BitVec.extractLsb'_append_eq_ite (v := 10) (w := 1),
    BitVec.extractLsb'_append_eq_ite (v := 7) (w := 3),
    BitVec.extractLsb'_append_eq_ite (v := 4) (w := 3)]

@[simp] theorem field_wordOpi_dr (op : Opcode) (dr sr1 : Reg) (imm5 : BitVec 5) :
    field (wordOpi op dr sr1 imm5) 11 9 = regBits dr := by
  simp [field, wordOpi, BitVec.extractLsb, BitVec.extractLsb'_append_eq_ite (v := 11) (w := 5),
    BitVec.extractLsb'_append_eq_ite (v := 10) (w := 1),
    BitVec.extractLsb'_append_eq_ite (v := 7) (w := 3),
    BitVec.extractLsb'_append_eq_ite (v := 4) (w := 3)]

@[simp] theorem field_wordOpi_sr1 (op : Opcode) (dr sr1 : Reg) (imm5 : BitVec 5) :
    field (wordOpi op dr sr1 imm5) 8 6 = regBits sr1 := by
  simp [field, wordOpi, BitVec.extractLsb, BitVec.extractLsb'_append_eq_ite (v := 11) (w := 5),
    BitVec.extractLsb'_append_eq_ite (v := 10) (w := 1),
    BitVec.extractLsb'_append_eq_ite (v := 7) (w := 3)]

@[simp] theorem field_wordOpi_mode (op : Opcode) (dr sr1 : Reg) (imm5 : BitVec 5) :
    field (wordOpi op dr sr1 imm5) 5 5 = 0b1#1 := by
  simp [field, wordOpi, BitVec.extractLsb, BitVec.extractLsb'_append_eq_ite (v := 11) (w := 5),
    BitVec.extractLsb'_append_eq_ite (v := 10) (w := 1)]

@[simp] theorem field_wordOpi_imm5 (op : Opcode) (dr sr1 : Reg) (imm5 : BitVec 5) :
    field (wordOpi op dr sr1 imm5) 4 0 = imm5 := by
  simp [field, wordOpi, BitVec.extractLsb, BitVec.extractLsb'_append_eq_ite (v := 11) (w := 5)]

/-! Format of R71 -/

@[simp] theorem field_wordNot_op (dr sr : Reg) :
    field (wordNot dr sr) 15 12 = Opcode.not.bits := by
  simp [field, wordNot, BitVec.extractLsb, BitVec.extractLsb'_append_eq_ite (v := 10) (w := 6),
    BitVec.extractLsb'_append_eq_ite (v := 7) (w := 3),
    BitVec.extractLsb'_append_eq_ite (v := 4) (w := 3)]

@[simp] theorem field_wordNot_dr (dr sr : Reg) :
    field (wordNot dr sr) 11 9 = regBits dr := by
  simp [field, wordNot, BitVec.extractLsb, BitVec.extractLsb'_append_eq_ite (v := 10) (w := 6),
    BitVec.extractLsb'_append_eq_ite (v := 7) (w := 3),
    BitVec.extractLsb'_append_eq_ite (v := 4) (w := 3)]

@[simp] theorem field_wordNot_sr (dr sr : Reg) :
    field (wordNot dr sr) 8 6 = regBits sr := by
  simp [field, wordNot, BitVec.extractLsb, BitVec.extractLsb'_append_eq_ite (v := 10) (w := 6),
    BitVec.extractLsb'_append_eq_ite (v := 7) (w := 3)]

@[simp] theorem field_wordNot_ones (dr sr : Reg) :
    field (wordNot dr sr) 5 0 = 0b111111#6 := by
  simp [field, wordNot, BitVec.extractLsb, BitVec.extractLsb'_append_eq_ite (v := 10) (w := 6)]

/-! Format of R72 -/

@[simp] theorem field_wordPc9_op (op : Opcode) (r : Reg) (off9 : BitVec 9) :
    field (wordPc9 op r off9) 15 12 = op.bits := by
  simp [field, wordPc9, BitVec.extractLsb, BitVec.extractLsb'_append_eq_ite (v := 7) (w := 9),
    BitVec.extractLsb'_append_eq_ite (v := 4) (w := 3)]

@[simp] theorem field_wordPc9_r (op : Opcode) (r : Reg) (off9 : BitVec 9) :
    field (wordPc9 op r off9) 11 9 = regBits r := by
  simp [field, wordPc9, BitVec.extractLsb, BitVec.extractLsb'_append_eq_ite (v := 7) (w := 9),
    BitVec.extractLsb'_append_eq_ite (v := 4) (w := 3)]

@[simp] theorem field_wordPc9_off9 (op : Opcode) (r : Reg) (off9 : BitVec 9) :
    field (wordPc9 op r off9) 8 0 = off9 := by
  simp [field, wordPc9, BitVec.extractLsb, BitVec.extractLsb'_append_eq_ite (v := 7) (w := 9)]

/-! Format of R73 -/

@[simp] theorem field_wordBr_op (nzp : BitVec 3) (off9 : BitVec 9) :
    field (wordBr nzp off9) 15 12 = Opcode.br.bits := by
  simp [field, wordBr, BitVec.extractLsb, BitVec.extractLsb'_append_eq_ite (v := 7) (w := 9),
    BitVec.extractLsb'_append_eq_ite (v := 4) (w := 3)]

@[simp] theorem field_wordBr_nzp (nzp : BitVec 3) (off9 : BitVec 9) :
    field (wordBr nzp off9) 11 9 = nzp := by
  simp [field, wordBr, BitVec.extractLsb, BitVec.extractLsb'_append_eq_ite (v := 7) (w := 9),
    BitVec.extractLsb'_append_eq_ite (v := 4) (w := 3)]

@[simp] theorem field_wordBr_off9 (nzp : BitVec 3) (off9 : BitVec 9) :
    field (wordBr nzp off9) 8 0 = off9 := by
  simp [field, wordBr, BitVec.extractLsb, BitVec.extractLsb'_append_eq_ite (v := 7) (w := 9)]

/-! Format of R74 -/

@[simp] theorem field_wordBase6_op (op : Opcode) (r base : Reg) (off6 : BitVec 6) :
    field (wordBase6 op r base off6) 15 12 = op.bits := by
  simp [field, wordBase6, BitVec.extractLsb, BitVec.extractLsb'_append_eq_ite (v := 10) (w := 6),
    BitVec.extractLsb'_append_eq_ite (v := 7) (w := 3),
    BitVec.extractLsb'_append_eq_ite (v := 4) (w := 3)]

@[simp] theorem field_wordBase6_r (op : Opcode) (r base : Reg) (off6 : BitVec 6) :
    field (wordBase6 op r base off6) 11 9 = regBits r := by
  simp [field, wordBase6, BitVec.extractLsb, BitVec.extractLsb'_append_eq_ite (v := 10) (w := 6),
    BitVec.extractLsb'_append_eq_ite (v := 7) (w := 3),
    BitVec.extractLsb'_append_eq_ite (v := 4) (w := 3)]

@[simp] theorem field_wordBase6_base (op : Opcode) (r base : Reg) (off6 : BitVec 6) :
    field (wordBase6 op r base off6) 8 6 = regBits base := by
  simp [field, wordBase6, BitVec.extractLsb, BitVec.extractLsb'_append_eq_ite (v := 10) (w := 6),
    BitVec.extractLsb'_append_eq_ite (v := 7) (w := 3)]

@[simp] theorem field_wordBase6_off6 (op : Opcode) (r base : Reg) (off6 : BitVec 6) :
    field (wordBase6 op r base off6) 5 0 = off6 := by
  simp [field, wordBase6, BitVec.extractLsb, BitVec.extractLsb'_append_eq_ite (v := 10) (w := 6)]

/-! Format of R75 -/

@[simp] theorem field_wordJmp_op (base : Reg) :
    field (wordJmp base) 15 12 = Opcode.jmp.bits := by
  simp [field, wordJmp, BitVec.extractLsb, BitVec.extractLsb'_append_eq_ite (v := 10) (w := 6),
    BitVec.extractLsb'_append_eq_ite (v := 7) (w := 3),
    BitVec.extractLsb'_append_eq_ite (v := 4) (w := 3)]

@[simp] theorem field_wordJmp_high (base : Reg) :
    field (wordJmp base) 11 9 = 0b000#3 := by
  simp [field, wordJmp, BitVec.extractLsb, BitVec.extractLsb'_append_eq_ite (v := 10) (w := 6),
    BitVec.extractLsb'_append_eq_ite (v := 7) (w := 3),
    BitVec.extractLsb'_append_eq_ite (v := 4) (w := 3)]

@[simp] theorem field_wordJmp_base (base : Reg) :
    field (wordJmp base) 8 6 = regBits base := by
  simp [field, wordJmp, BitVec.extractLsb, BitVec.extractLsb'_append_eq_ite (v := 10) (w := 6),
    BitVec.extractLsb'_append_eq_ite (v := 7) (w := 3)]

@[simp] theorem field_wordJmp_low (base : Reg) :
    field (wordJmp base) 5 0 = 0b000000#6 := by
  simp [field, wordJmp, BitVec.extractLsb, BitVec.extractLsb'_append_eq_ite (v := 10) (w := 6)]

/-! Format of R76 -/

@[simp] theorem field_wordJsr_op (off11 : BitVec 11) :
    field (wordJsr off11) 15 12 = Opcode.jsr.bits := by
  simp [field, wordJsr, BitVec.extractLsb, BitVec.extractLsb'_append_eq_ite (v := 5) (w := 11),
    BitVec.extractLsb'_append_eq_ite (v := 4) (w := 1)]

@[simp] theorem field_wordJsr_mode (off11 : BitVec 11) :
    field (wordJsr off11) 11 11 = 0b1#1 := by
  simp [field, wordJsr, BitVec.extractLsb, BitVec.extractLsb'_append_eq_ite (v := 5) (w := 11),
    BitVec.extractLsb'_append_eq_ite (v := 4) (w := 1)]

@[simp] theorem field_wordJsr_off11 (off11 : BitVec 11) :
    field (wordJsr off11) 10 0 = off11 := by
  simp [field, wordJsr, BitVec.extractLsb, BitVec.extractLsb'_append_eq_ite (v := 5) (w := 11)]

/-! Format of R77 -/

@[simp] theorem field_wordJsrr_op (base : Reg) :
    field (wordJsrr base) 15 12 = Opcode.jsr.bits := by
  simp [field, wordJsrr, BitVec.extractLsb, BitVec.extractLsb'_append_eq_ite (v := 10) (w := 6),
    BitVec.extractLsb'_append_eq_ite (v := 7) (w := 3),
    BitVec.extractLsb'_append_eq_ite (v := 4) (w := 3)]

@[simp] theorem field_wordJsrr_mode (base : Reg) :
    field (wordJsrr base) 11 11 = 0b0#1 := by
  simp [field, wordJsrr, BitVec.extractLsb, BitVec.extractLsb'_append_eq_ite (v := 10) (w := 6),
    BitVec.extractLsb'_append_eq_ite (v := 7) (w := 3),
    BitVec.extractLsb'_append_eq_ite (v := 4) (w := 3)]

@[simp] theorem field_wordJsrr_high (base : Reg) :
    field (wordJsrr base) 10 9 = 0b00#2 := by
  simp [field, wordJsrr, BitVec.extractLsb, BitVec.extractLsb'_append_eq_ite (v := 10) (w := 6),
    BitVec.extractLsb'_append_eq_ite (v := 7) (w := 3),
    BitVec.extractLsb'_append_eq_ite (v := 4) (w := 3)]

@[simp] theorem field_wordJsrr_base (base : Reg) :
    field (wordJsrr base) 8 6 = regBits base := by
  simp [field, wordJsrr, BitVec.extractLsb, BitVec.extractLsb'_append_eq_ite (v := 10) (w := 6),
    BitVec.extractLsb'_append_eq_ite (v := 7) (w := 3)]

@[simp] theorem field_wordJsrr_low (base : Reg) :
    field (wordJsrr base) 5 0 = 0b000000#6 := by
  simp [field, wordJsrr, BitVec.extractLsb, BitVec.extractLsb'_append_eq_ite (v := 10) (w := 6)]

/-! Format of R78 -/

@[simp] theorem field_wordTrap_op (vect8 : BitVec 8) :
    field (wordTrap vect8) 15 12 = Opcode.trap.bits := by
  simp [field, wordTrap, BitVec.extractLsb, BitVec.extractLsb'_append_eq_ite (v := 8) (w := 8),
    BitVec.extractLsb'_append_eq_ite (v := 4) (w := 4)]

@[simp] theorem field_wordTrap_padding (vect8 : BitVec 8) :
    field (wordTrap vect8) 11 8 = 0b0000#4 := by
  simp [field, wordTrap, BitVec.extractLsb, BitVec.extractLsb'_append_eq_ite (v := 8) (w := 8),
    BitVec.extractLsb'_append_eq_ite (v := 4) (w := 4)]

@[simp] theorem field_wordTrap_vect8 (vect8 : BitVec 8) :
    field (wordTrap vect8) 7 0 = vect8 := by
  simp [field, wordTrap, BitVec.extractLsb, BitVec.extractLsb'_append_eq_ite (v := 8) (w := 8)]

/-! Format of R79 -/

@[simp] theorem field_wordAny_op (op : Opcode) (low12 : BitVec 12) :
    field (wordAny op low12) 15 12 = op.bits := by
  simp [field, wordAny, BitVec.extractLsb, BitVec.extractLsb'_append_eq_ite (v := 4) (w := 12)]

@[simp] theorem field_wordAny_low12 (op : Opcode) (low12 : BitVec 12) :
    field (wordAny op low12) 11 0 = low12 := by
  simp [field, wordAny, BitVec.extractLsb, BitVec.extractLsb'_append_eq_ite (v := 4) (w := 12)]

/-! What the decoder answers, by the opcode bits (R67, R87) -/

theorem decode_add (w : Word) (h : field w 15 12 = Opcode.add.bits) :
    decode w =
      if field w 5 5 = 1#1 then .ok (.addImm (fieldDr w) (fieldSr1 w) (field w 4 0))
      else if field w 4 3 = 0b00#2 then .ok (.addReg (fieldDr w) (fieldSr1 w) (fieldSr2 w))
      else .error .reservedBits := by
  have : opcode w = .add := by rw [opcode, h, Opcode.ofBits_bits]
  unfold decode
  rw [this]

theorem decode_and (w : Word) (h : field w 15 12 = Opcode.and.bits) :
    decode w =
      if field w 5 5 = 1#1 then .ok (.andImm (fieldDr w) (fieldSr1 w) (field w 4 0))
      else if field w 4 3 = 0b00#2 then .ok (.andReg (fieldDr w) (fieldSr1 w) (fieldSr2 w))
      else .error .reservedBits := by
  have : opcode w = .and := by rw [opcode, h, Opcode.ofBits_bits]
  unfold decode
  rw [this]

theorem decode_not (w : Word) (h : field w 15 12 = Opcode.not.bits) :
    decode w =
      if field w 5 0 = 0b111111#6 then .ok (.not (fieldDr w) (fieldSr1 w)) else .error .reservedBits := by
  have : opcode w = .not := by rw [opcode, h, Opcode.ofBits_bits]
  unfold decode
  rw [this]

theorem decode_lea (w : Word) (h : field w 15 12 = Opcode.lea.bits) :
    decode w =
      .ok (.lea (fieldDr w) (field w 8 0)) := by
  have : opcode w = .lea := by rw [opcode, h, Opcode.ofBits_bits]
  unfold decode
  rw [this]

theorem decode_ld (w : Word) (h : field w 15 12 = Opcode.ld.bits) :
    decode w =
      .ok (.ld (fieldDr w) (field w 8 0)) := by
  have : opcode w = .ld := by rw [opcode, h, Opcode.ofBits_bits]
  unfold decode
  rw [this]

theorem decode_ldi (w : Word) (h : field w 15 12 = Opcode.ldi.bits) :
    decode w =
      .ok (.ldi (fieldDr w) (field w 8 0)) := by
  have : opcode w = .ldi := by rw [opcode, h, Opcode.ofBits_bits]
  unfold decode
  rw [this]

theorem decode_ldr (w : Word) (h : field w 15 12 = Opcode.ldr.bits) :
    decode w =
      .ok (.ldr (fieldDr w) (fieldSr1 w) (field w 5 0)) := by
  have : opcode w = .ldr := by rw [opcode, h, Opcode.ofBits_bits]
  unfold decode
  rw [this]

theorem decode_st (w : Word) (h : field w 15 12 = Opcode.st.bits) :
    decode w =
      .ok (.st (fieldDr w) (field w 8 0)) := by
  have : opcode w = .st := by rw [opcode, h, Opcode.ofBits_bits]
  unfold decode
  rw [this]

theorem decode_sti (w : Word) (h : field w 15 12 = Opcode.sti.bits) :
    decode w =
      .ok (.sti (fieldDr w) (field w 8 0)) := by
  have : opcode w = .sti := by rw [opcode, h, Opcode.ofBits_bits]
  unfold decode
  rw [this]

theorem decode_str (w : Word) (h : field w 15 12 = Opcode.str.bits) :
    decode w =
      .ok (.str (fieldDr w) (fieldSr1 w) (field w 5 0)) := by
  have : opcode w = .str := by rw [opcode, h, Opcode.ofBits_bits]
  unfold decode
  rw [this]

theorem decode_br (w : Word) (h : field w 15 12 = Opcode.br.bits) :
    decode w =
      .ok (.br (field w 11 9) (field w 8 0)) := by
  have : opcode w = .br := by rw [opcode, h, Opcode.ofBits_bits]
  unfold decode
  rw [this]

theorem decode_jmp (w : Word) (h : field w 15 12 = Opcode.jmp.bits) :
    decode w =
      if field w 11 9 = 0b000#3 ∧ field w 5 0 = 0b000000#6 then .ok (jmpInstr (fieldSr1 w))
      else .error .reservedBits := by
  have : opcode w = .jmp := by rw [opcode, h, Opcode.ofBits_bits]
  unfold decode
  rw [this]

theorem decode_jsr (w : Word) (h : field w 15 12 = Opcode.jsr.bits) :
    decode w =
      if field w 11 11 = 1#1 then .ok (.jsr (field w 10 0))
      else if field w 10 9 = 0b00#2 ∧ field w 5 0 = 0b000000#6 then .ok (.jsrr (fieldSr1 w))
      else .error .reservedBits := by
  have : opcode w = .jsr := by rw [opcode, h, Opcode.ofBits_bits]
  unfold decode
  rw [this]

theorem decode_trap (w : Word) (h : field w 15 12 = Opcode.trap.bits) :
    decode w =
      if field w 11 8 = 0b0000#4 then .ok (trapInstr (field w 7 0)) else .error .reservedBits := by
  have : opcode w = .trap := by rw [opcode, h, Opcode.ofBits_bits]
  unfold decode
  rw [this]

theorem decode_rti (w : Word) (h : field w 15 12 = Opcode.rti.bits) :
    decode w =
      .ok (.rti (field w 11 0)) := by
  have : opcode w = .rti := by rw [opcode, h, Opcode.ofBits_bits]
  unfold decode
  rw [this]

theorem decode_reserved (w : Word) (h : field w 15 12 = Opcode.reserved.bits) :
    decode w =
      .ok (.reserved (field w 11 0)) := by
  have : opcode w = .reserved := by rw [opcode, h, Opcode.ofBits_bits]
  unfold decode
  rw [this]

/-! A word put together again from its own fields -/

theorem wordOpr_fields (w : Word) (op : Opcode) (h0 : field w 15 12 = op.bits) (h1 : field w 5 3 = 0b000#3) :
    wordOpr op (fieldDr w) (fieldSr1 w) (fieldSr2 w) = w := by
  unfold wordOpr
  apply BitVec.eq_of_toNat_eq
  simp only [fieldDr, fieldSr1, fieldSr2, regBits_regOfBits]
  rw [← h0, ← h1]
  repeat rw [BitVec.toNat_append, ← Nat.shiftLeft_add_eq_or_of_lt (BitVec.isLt _)]
  simp only [field, BitVec.extractLsb_toNat, Nat.shiftLeft_eq, Nat.shiftRight_eq_div_pow]
  omega

theorem wordOpi_fields (w : Word) (op : Opcode) (h0 : field w 15 12 = op.bits) (h1 : field w 5 5 = 0b1#1) :
    wordOpi op (fieldDr w) (fieldSr1 w) (field w 4 0) = w := by
  unfold wordOpi
  apply BitVec.eq_of_toNat_eq
  simp only [fieldDr, fieldSr1, regBits_regOfBits]
  rw [← h0, ← h1]
  repeat rw [BitVec.toNat_append, ← Nat.shiftLeft_add_eq_or_of_lt (BitVec.isLt _)]
  simp only [field, BitVec.extractLsb_toNat, Nat.shiftLeft_eq, Nat.shiftRight_eq_div_pow]
  omega

theorem wordNot_fields (w : Word) (h0 : field w 15 12 = Opcode.not.bits) (h1 : field w 5 0 = 0b111111#6) :
    wordNot (fieldDr w) (fieldSr1 w) = w := by
  unfold wordNot
  apply BitVec.eq_of_toNat_eq
  simp only [fieldDr, fieldSr1, regBits_regOfBits]
  rw [← h0, ← h1]
  repeat rw [BitVec.toNat_append, ← Nat.shiftLeft_add_eq_or_of_lt (BitVec.isLt _)]
  simp only [field, BitVec.extractLsb_toNat, Nat.shiftLeft_eq, Nat.shiftRight_eq_div_pow]
  omega

theorem wordPc9_fields (w : Word) (op : Opcode) (h0 : field w 15 12 = op.bits) :
    wordPc9 op (fieldDr w) (field w 8 0) = w := by
  unfold wordPc9
  apply BitVec.eq_of_toNat_eq
  simp only [fieldDr, regBits_regOfBits]
  rw [← h0]
  repeat rw [BitVec.toNat_append, ← Nat.shiftLeft_add_eq_or_of_lt (BitVec.isLt _)]
  simp only [field, BitVec.extractLsb_toNat, Nat.shiftLeft_eq, Nat.shiftRight_eq_div_pow]
  omega

theorem wordBr_fields (w : Word) (h0 : field w 15 12 = Opcode.br.bits) :
    wordBr (field w 11 9) (field w 8 0) = w := by
  unfold wordBr
  apply BitVec.eq_of_toNat_eq
  rw [← h0]
  repeat rw [BitVec.toNat_append, ← Nat.shiftLeft_add_eq_or_of_lt (BitVec.isLt _)]
  simp only [field, BitVec.extractLsb_toNat, Nat.shiftLeft_eq, Nat.shiftRight_eq_div_pow]
  omega

theorem wordBase6_fields (w : Word) (op : Opcode) (h0 : field w 15 12 = op.bits) :
    wordBase6 op (fieldDr w) (fieldSr1 w) (field w 5 0) = w := by
  unfold wordBase6
  apply BitVec.eq_of_toNat_eq
  simp only [fieldDr, fieldSr1, regBits_regOfBits]
  rw [← h0]
  repeat rw [BitVec.toNat_append, ← Nat.shiftLeft_add_eq_or_of_lt (BitVec.isLt _)]
  simp only [field, BitVec.extractLsb_toNat, Nat.shiftLeft_eq, Nat.shiftRight_eq_div_pow]
  omega

theorem wordJmp_fields (w : Word) (h0 : field w 15 12 = Opcode.jmp.bits) (h1 : field w 11 9 = 0b000#3) (h2 : field w 5 0 = 0b000000#6) :
    wordJmp (fieldSr1 w) = w := by
  unfold wordJmp
  apply BitVec.eq_of_toNat_eq
  simp only [fieldSr1, regBits_regOfBits]
  rw [← h0, ← h1, ← h2]
  repeat rw [BitVec.toNat_append, ← Nat.shiftLeft_add_eq_or_of_lt (BitVec.isLt _)]
  simp only [field, BitVec.extractLsb_toNat, Nat.shiftLeft_eq, Nat.shiftRight_eq_div_pow]
  omega

theorem wordJsr_fields (w : Word) (h0 : field w 15 12 = Opcode.jsr.bits) (h1 : field w 11 11 = 0b1#1) :
    wordJsr (field w 10 0) = w := by
  unfold wordJsr
  apply BitVec.eq_of_toNat_eq
  rw [← h0, ← h1]
  repeat rw [BitVec.toNat_append, ← Nat.shiftLeft_add_eq_or_of_lt (BitVec.isLt _)]
  simp only [field, BitVec.extractLsb_toNat, Nat.shiftLeft_eq, Nat.shiftRight_eq_div_pow]
  omega

theorem wordJsrr_fields (w : Word) (h0 : field w 15 12 = Opcode.jsr.bits) (h1 : field w 11 9 = 0b000#3) (h2 : field w 5 0 = 0b000000#6) :
    wordJsrr (fieldSr1 w) = w := by
  unfold wordJsrr
  apply BitVec.eq_of_toNat_eq
  simp only [fieldSr1, regBits_regOfBits]
  rw [← h0, ← h1, ← h2]
  repeat rw [BitVec.toNat_append, ← Nat.shiftLeft_add_eq_or_of_lt (BitVec.isLt _)]
  simp only [field, BitVec.extractLsb_toNat, Nat.shiftLeft_eq, Nat.shiftRight_eq_div_pow]
  omega

theorem wordTrap_fields (w : Word) (h0 : field w 15 12 = Opcode.trap.bits) (h1 : field w 11 8 = 0b0000#4) :
    wordTrap (field w 7 0) = w := by
  unfold wordTrap
  apply BitVec.eq_of_toNat_eq
  rw [← h0, ← h1]
  repeat rw [BitVec.toNat_append, ← Nat.shiftLeft_add_eq_or_of_lt (BitVec.isLt _)]
  simp only [field, BitVec.extractLsb_toNat, Nat.shiftLeft_eq, Nat.shiftRight_eq_div_pow]
  omega

theorem wordAny_fields (w : Word) (op : Opcode) (h0 : field w 15 12 = op.bits) :
    wordAny op (field w 11 0) = w := by
  unfold wordAny
  apply BitVec.eq_of_toNat_eq
  rw [← h0]
  repeat rw [BitVec.toNat_append, ← Nat.shiftLeft_add_eq_or_of_lt (BitVec.isLt _)]
  simp only [field, BitVec.extractLsb_toNat, Nat.shiftLeft_eq, Nat.shiftRight_eq_div_pow]
  omega

/-- The mode bit and the padding of an OPR word, joined (R69). -/
theorem field_opr_joined (w : Word) (h0 : field w 5 5 ≠ 0b1#1) (h1 : field w 4 3 = 0b00#2) :
    field w 5 3 = 0b000#3 := by
  simp only [field, ne_eq, ← BitVec.toNat_inj, BitVec.extractLsb_toNat, Nat.shiftRight_eq_div_pow] at *
  simp at *
  omega

/-- The mode bit and the padding of a JSRR word, joined (R77). -/
theorem field_jsrr_joined (w : Word) (h0 : field w 11 11 ≠ 0b1#1) (h1 : field w 10 9 = 0b00#2) :
    field w 11 9 = 0b000#3 := by
  simp only [field, ne_eq, ← BitVec.toNat_inj, BitVec.extractLsb_toNat, Nat.shiftRight_eq_div_pow] at *
  simp at *
  omega

end Sys2Proof
end

