-- ==== Sys2Proof/Laws/Flags.lean ====
section
/-! SUPPORT. What the flag computation and BR's test say. -/

namespace Sys2Proof.Machine

/-- The condition code of a result is the flag of its signed sign (R100, R101). -/
theorem signFlag_ccOf (r : Word) : SignFlag r (ccOf r) := by
  have hz : r.toInt = 0 ↔ r = 0x0000#16 := by
    rw [← BitVec.toInt_inj]; simp
  have hn : r.msb = true ↔ r.toInt < 0 := by
    rw [BitVec.toInt_neg_iff, BitVec.msb_eq_decide]
    simp only [decide_eq_true_eq]
    omega
  unfold SignFlag ccOf
  by_cases h1 : r.msb
  · have := hn.1 h1
    simp only [h1, if_true]
    simp only [true_iff, reduceCtorEq, false_iff]
    omega
  · have h2 : ¬ r.toInt < 0 := fun h => h1 (hn.2 h)
    by_cases h3 : r = 0x0000#16
    · have := hz.2 h3
      simp only [h3, if_true]
      decide
    · have : r.toInt ≠ 0 := fun h => h3 (hz.1 h)
      simp only [h1, h3, Bool.false_eq_true, if_false, reduceCtorEq, false_iff, true_iff]
      omega

/-- BR's test selects one bit of the condition field: N with bit 2, Z with bit 1, P with bit 0 (R27, R140). -/
theorem branchTaken_eq (cc : CC) (nzp : BitVec 3) :
    branchTaken cc nzp = match cc with | .n => nzp[2] | .z => nzp[1] | .p => nzp[0] := by
  revert nzp; cases cc <;> decide

/-- With every flag selected the branch is always taken (R140). -/
theorem branchTaken_all (cc : CC) : branchTaken cc 0b111#3 = true := by
  cases cc <;> rfl

end Sys2Proof.Machine
end

