-- ==== Sys2Proof/Laws/State.lean ====
section
/-! SUPPORT. One lemma per field per operation, so that no later proof unfolds a record update. -/

namespace Sys2Proof.Machine

section
variable (s : State)

/-! memWrite -/

@[simp] theorem State.memWrite_mem (a v : Word) : (s.memWrite a v).mem = Memory.write s.mem a v := rfl
@[simp] theorem State.memWrite_x (a v : Word) : (s.memWrite a v).x = s.x := rfl
@[simp] theorem State.memWrite_pc (a v : Word) : (s.memWrite a v).pc = s.pc := rfl
@[simp] theorem State.memWrite_cc (a v : Word) : (s.memWrite a v).cc = s.cc := rfl
@[simp] theorem State.memWrite_status (a v : Word) : (s.memWrite a v).status = s.status := rfl
@[simp] theorem State.memWrite_svc (a v : Word) : (s.memWrite a v).svc = s.svc := rfl
@[simp] theorem State.memWrite_lastNL (a v : Word) : (s.memWrite a v).lastNL = s.lastNL := rfl
@[simp] theorem State.memWrite_out (a v : Word) : (s.memWrite a v).out = s.out := rfl
@[simp] theorem State.memWrite_unflushed (a v : Word) : (s.memWrite a v).unflushed = s.unflushed := rfl
@[simp] theorem State.memWrite_input (a v : Word) : (s.memWrite a v).input = s.input := rfl
@[simp] theorem State.memWrite_draws (a v : Word) : (s.memWrite a v).draws = s.draws := rfl
@[simp] theorem State.memWrite_reg (a v : Word) (r : Reg) : (s.memWrite a v).reg r = s.reg r := rfl

/-! setReg -/

@[simp] theorem State.setReg_mem (i : Reg) (v : Word) : (s.setReg i v).mem = s.mem := rfl
@[simp] theorem State.setReg_x (i : Reg) (v : Word) : (s.setReg i v).x = s.x.set i.val v i.isLt := rfl
@[simp] theorem State.setReg_pc (i : Reg) (v : Word) : (s.setReg i v).pc = s.pc := rfl
@[simp] theorem State.setReg_cc (i : Reg) (v : Word) : (s.setReg i v).cc = s.cc := rfl
@[simp] theorem State.setReg_status (i : Reg) (v : Word) : (s.setReg i v).status = s.status := rfl
@[simp] theorem State.setReg_svc (i : Reg) (v : Word) : (s.setReg i v).svc = s.svc := rfl
@[simp] theorem State.setReg_lastNL (i : Reg) (v : Word) : (s.setReg i v).lastNL = s.lastNL := rfl
@[simp] theorem State.setReg_out (i : Reg) (v : Word) : (s.setReg i v).out = s.out := rfl
@[simp] theorem State.setReg_unflushed (i : Reg) (v : Word) : (s.setReg i v).unflushed = s.unflushed := rfl
@[simp] theorem State.setReg_input (i : Reg) (v : Word) : (s.setReg i v).input = s.input := rfl
@[simp] theorem State.setReg_draws (i : Reg) (v : Word) : (s.setReg i v).draws = s.draws := rfl
@[simp] theorem State.setReg_memRead (i : Reg) (v : Word) (b : Word) : (s.setReg i v).memRead b = s.memRead b := rfl

/-! setPc -/

@[simp] theorem State.setPc_mem (t : Word) : (s.setPc t).mem = s.mem := rfl
@[simp] theorem State.setPc_x (t : Word) : (s.setPc t).x = s.x := rfl
@[simp] theorem State.setPc_pc (t : Word) : (s.setPc t).pc = t := rfl
@[simp] theorem State.setPc_cc (t : Word) : (s.setPc t).cc = s.cc := rfl
@[simp] theorem State.setPc_status (t : Word) : (s.setPc t).status = s.status := rfl
@[simp] theorem State.setPc_svc (t : Word) : (s.setPc t).svc = s.svc := rfl
@[simp] theorem State.setPc_lastNL (t : Word) : (s.setPc t).lastNL = s.lastNL := rfl
@[simp] theorem State.setPc_out (t : Word) : (s.setPc t).out = s.out := rfl
@[simp] theorem State.setPc_unflushed (t : Word) : (s.setPc t).unflushed = s.unflushed := rfl
@[simp] theorem State.setPc_input (t : Word) : (s.setPc t).input = s.input := rfl
@[simp] theorem State.setPc_draws (t : Word) : (s.setPc t).draws = s.draws := rfl
@[simp] theorem State.setPc_reg (t : Word) (r : Reg) : (s.setPc t).reg r = s.reg r := rfl
@[simp] theorem State.setPc_memRead (t : Word) (b : Word) : (s.setPc t).memRead b = s.memRead b := rfl

/-! advance -/

@[simp] theorem State.advance_mem : (s.advance).mem = s.mem := rfl
@[simp] theorem State.advance_x : (s.advance).x = s.x := rfl
@[simp] theorem State.advance_pc : (s.advance).pc = s.pc + 1 := rfl
@[simp] theorem State.advance_cc : (s.advance).cc = s.cc := rfl
@[simp] theorem State.advance_status : (s.advance).status = s.status := rfl
@[simp] theorem State.advance_svc : (s.advance).svc = s.svc := rfl
@[simp] theorem State.advance_lastNL : (s.advance).lastNL = s.lastNL := rfl
@[simp] theorem State.advance_out : (s.advance).out = s.out := rfl
@[simp] theorem State.advance_unflushed : (s.advance).unflushed = s.unflushed := rfl
@[simp] theorem State.advance_input : (s.advance).input = s.input := rfl
@[simp] theorem State.advance_draws : (s.advance).draws = s.draws := rfl
@[simp] theorem State.advance_reg (r : Reg) : (s.advance).reg r = s.reg r := rfl
@[simp] theorem State.advance_memRead (b : Word) : (s.advance).memRead b = s.memRead b := rfl

/-! setcc -/

@[simp] theorem State.setcc_mem (v : Word) : (s.setcc v).mem = s.mem := rfl
@[simp] theorem State.setcc_x (v : Word) : (s.setcc v).x = s.x := rfl
@[simp] theorem State.setcc_pc (v : Word) : (s.setcc v).pc = s.pc := rfl
@[simp] theorem State.setcc_cc (v : Word) : (s.setcc v).cc = ccOf v := rfl
@[simp] theorem State.setcc_status (v : Word) : (s.setcc v).status = s.status := rfl
@[simp] theorem State.setcc_svc (v : Word) : (s.setcc v).svc = s.svc := rfl
@[simp] theorem State.setcc_lastNL (v : Word) : (s.setcc v).lastNL = s.lastNL := rfl
@[simp] theorem State.setcc_out (v : Word) : (s.setcc v).out = s.out := rfl
@[simp] theorem State.setcc_unflushed (v : Word) : (s.setcc v).unflushed = s.unflushed := rfl
@[simp] theorem State.setcc_input (v : Word) : (s.setcc v).input = s.input := rfl
@[simp] theorem State.setcc_draws (v : Word) : (s.setcc v).draws = s.draws := rfl
@[simp] theorem State.setcc_reg (v : Word) (r : Reg) : (s.setcc v).reg r = s.reg r := rfl
@[simp] theorem State.setcc_memRead (v : Word) (b : Word) : (s.setcc v).memRead b = s.memRead b := rfl

/-! writeResult -/

@[simp] theorem State.writeResult_mem (i : Reg) (v : Word) : (s.writeResult i v).mem = s.mem := rfl
@[simp] theorem State.writeResult_x (i : Reg) (v : Word) : (s.writeResult i v).x = s.x.set i.val v i.isLt := rfl
@[simp] theorem State.writeResult_pc (i : Reg) (v : Word) : (s.writeResult i v).pc = s.pc := rfl
@[simp] theorem State.writeResult_cc (i : Reg) (v : Word) : (s.writeResult i v).cc = ccOf v := rfl
@[simp] theorem State.writeResult_status (i : Reg) (v : Word) : (s.writeResult i v).status = s.status := rfl
@[simp] theorem State.writeResult_svc (i : Reg) (v : Word) : (s.writeResult i v).svc = s.svc := rfl
@[simp] theorem State.writeResult_lastNL (i : Reg) (v : Word) : (s.writeResult i v).lastNL = s.lastNL := rfl
@[simp] theorem State.writeResult_out (i : Reg) (v : Word) : (s.writeResult i v).out = s.out := rfl
@[simp] theorem State.writeResult_unflushed (i : Reg) (v : Word) : (s.writeResult i v).unflushed = s.unflushed := rfl
@[simp] theorem State.writeResult_input (i : Reg) (v : Word) : (s.writeResult i v).input = s.input := rfl
@[simp] theorem State.writeResult_draws (i : Reg) (v : Word) : (s.writeResult i v).draws = s.draws := rfl
@[simp] theorem State.writeResult_memRead (i : Reg) (v : Word) (b : Word) : (s.writeResult i v).memRead b = s.memRead b := rfl

/-! setSvc -/

@[simp] theorem State.setSvc_mem (v : Svc) : (s.setSvc v).mem = s.mem := rfl
@[simp] theorem State.setSvc_x (v : Svc) : (s.setSvc v).x = s.x := rfl
@[simp] theorem State.setSvc_pc (v : Svc) : (s.setSvc v).pc = s.pc := rfl
@[simp] theorem State.setSvc_cc (v : Svc) : (s.setSvc v).cc = s.cc := rfl
@[simp] theorem State.setSvc_status (v : Svc) : (s.setSvc v).status = s.status := rfl
@[simp] theorem State.setSvc_svc (v : Svc) : (s.setSvc v).svc = v := rfl
@[simp] theorem State.setSvc_lastNL (v : Svc) : (s.setSvc v).lastNL = s.lastNL := rfl
@[simp] theorem State.setSvc_out (v : Svc) : (s.setSvc v).out = s.out := rfl
@[simp] theorem State.setSvc_unflushed (v : Svc) : (s.setSvc v).unflushed = s.unflushed := rfl
@[simp] theorem State.setSvc_input (v : Svc) : (s.setSvc v).input = s.input := rfl
@[simp] theorem State.setSvc_draws (v : Svc) : (s.setSvc v).draws = s.draws := rfl
@[simp] theorem State.setSvc_reg (v : Svc) (r : Reg) : (s.setSvc v).reg r = s.reg r := rfl
@[simp] theorem State.setSvc_memRead (v : Svc) (b : Word) : (s.setSvc v).memRead b = s.memRead b := rfl

/-! emit -/

@[simp] theorem State.emit_mem (c : Byte) : (s.emit c).mem = s.mem := rfl
@[simp] theorem State.emit_x (c : Byte) : (s.emit c).x = s.x := rfl
@[simp] theorem State.emit_pc (c : Byte) : (s.emit c).pc = s.pc := rfl
@[simp] theorem State.emit_cc (c : Byte) : (s.emit c).cc = s.cc := rfl
@[simp] theorem State.emit_status (c : Byte) : (s.emit c).status = s.status := rfl
@[simp] theorem State.emit_svc (c : Byte) : (s.emit c).svc = s.svc := rfl
@[simp] theorem State.emit_lastNL (c : Byte) : (s.emit c).lastNL = decide (c = 0x0A#8) := rfl
@[simp] theorem State.emit_out (c : Byte) : (s.emit c).out = s.out ++ [c] := rfl
@[simp] theorem State.emit_unflushed (c : Byte) : (s.emit c).unflushed = s.unflushed + 1 := rfl
@[simp] theorem State.emit_input (c : Byte) : (s.emit c).input = s.input := rfl
@[simp] theorem State.emit_draws (c : Byte) : (s.emit c).draws = s.draws := rfl
@[simp] theorem State.emit_reg (c : Byte) (r : Reg) : (s.emit c).reg r = s.reg r := rfl
@[simp] theorem State.emit_memRead (c : Byte) (b : Word) : (s.emit c).memRead b = s.memRead b := rfl

/-! flush -/

@[simp] theorem State.flush_mem : (s.flush).mem = s.mem := rfl
@[simp] theorem State.flush_x : (s.flush).x = s.x := rfl
@[simp] theorem State.flush_pc : (s.flush).pc = s.pc := rfl
@[simp] theorem State.flush_cc : (s.flush).cc = s.cc := rfl
@[simp] theorem State.flush_status : (s.flush).status = s.status := rfl
@[simp] theorem State.flush_svc : (s.flush).svc = s.svc := rfl
@[simp] theorem State.flush_lastNL : (s.flush).lastNL = s.lastNL := rfl
@[simp] theorem State.flush_out : (s.flush).out = s.out := rfl
@[simp] theorem State.flush_unflushed : (s.flush).unflushed = 0 := rfl
@[simp] theorem State.flush_input : (s.flush).input = s.input := rfl
@[simp] theorem State.flush_draws : (s.flush).draws = s.draws := rfl
@[simp] theorem State.flush_reg (r : Reg) : (s.flush).reg r = s.reg r := rfl
@[simp] theorem State.flush_memRead (b : Word) : (s.flush).memRead b = s.memRead b := rfl

/-! supply -/

@[simp] theorem State.supply_mem (bs : List Byte) : (s.supply bs).mem = s.mem := rfl
@[simp] theorem State.supply_x (bs : List Byte) : (s.supply bs).x = s.x := rfl
@[simp] theorem State.supply_pc (bs : List Byte) : (s.supply bs).pc = s.pc := rfl
@[simp] theorem State.supply_cc (bs : List Byte) : (s.supply bs).cc = s.cc := rfl
@[simp] theorem State.supply_status (bs : List Byte) : (s.supply bs).status = s.status := rfl
@[simp] theorem State.supply_svc (bs : List Byte) : (s.supply bs).svc = s.svc := rfl
@[simp] theorem State.supply_lastNL (bs : List Byte) : (s.supply bs).lastNL = s.lastNL := rfl
@[simp] theorem State.supply_out (bs : List Byte) : (s.supply bs).out = s.out := rfl
@[simp] theorem State.supply_unflushed (bs : List Byte) : (s.supply bs).unflushed = s.unflushed := rfl
@[simp] theorem State.supply_input (bs : List Byte) : (s.supply bs).input = s.input ++ bs := rfl
@[simp] theorem State.supply_draws (bs : List Byte) : (s.supply bs).draws = s.draws := rfl
@[simp] theorem State.supply_reg (bs : List Byte) (r : Reg) : (s.supply bs).reg r = s.reg r := rfl
@[simp] theorem State.supply_memRead (bs : List Byte) (b : Word) : (s.supply bs).memRead b = s.memRead b := rfl

/-! raise -/

@[simp] theorem State.raise_mem (k : ErrorKind) (w a : Word) : (s.raise k w a).mem = s.mem := rfl
@[simp] theorem State.raise_x (k : ErrorKind) (w a : Word) : (s.raise k w a).x = s.x := rfl
@[simp] theorem State.raise_pc (k : ErrorKind) (w a : Word) : (s.raise k w a).pc = Config.freePc s.draws := rfl
@[simp] theorem State.raise_cc (k : ErrorKind) (w a : Word) : (s.raise k w a).cc = s.cc := rfl
@[simp] theorem State.raise_status (k : ErrorKind) (w a : Word) : (s.raise k w a).status = .error k w a := rfl
@[simp] theorem State.raise_svc (k : ErrorKind) (w a : Word) : (s.raise k w a).svc = s.svc := rfl
@[simp] theorem State.raise_lastNL (k : ErrorKind) (w a : Word) : (s.raise k w a).lastNL = s.lastNL := rfl
@[simp] theorem State.raise_out (k : ErrorKind) (w a : Word) : (s.raise k w a).out = s.out := rfl
@[simp] theorem State.raise_unflushed (k : ErrorKind) (w a : Word) : (s.raise k w a).unflushed = s.unflushed := rfl
@[simp] theorem State.raise_input (k : ErrorKind) (w a : Word) : (s.raise k w a).input = s.input := rfl
@[simp] theorem State.raise_draws (k : ErrorKind) (w a : Word) : (s.raise k w a).draws = s.draws + 1 := rfl
@[simp] theorem State.raise_reg (k : ErrorKind) (w a : Word) (r : Reg) : (s.raise k w a).reg r = s.reg r := rfl
@[simp] theorem State.raise_memRead (k : ErrorKind) (w a : Word) (b : Word) : (s.raise k w a).memRead b = s.memRead b := rfl

/-! raiseFor -/

@[simp] theorem State.raiseFor_mem (k : ErrorKind) (i : Instr) : (s.raiseFor k i).mem = s.mem := rfl
@[simp] theorem State.raiseFor_x (k : ErrorKind) (i : Instr) : (s.raiseFor k i).x = s.x := rfl
@[simp] theorem State.raiseFor_pc (k : ErrorKind) (i : Instr) : (s.raiseFor k i).pc = Config.freePc s.draws := rfl
@[simp] theorem State.raiseFor_cc (k : ErrorKind) (i : Instr) : (s.raiseFor k i).cc = s.cc := rfl
@[simp] theorem State.raiseFor_status (k : ErrorKind) (i : Instr) : (s.raiseFor k i).status = .error k (encode i) (s.pc - 1) := rfl
@[simp] theorem State.raiseFor_svc (k : ErrorKind) (i : Instr) : (s.raiseFor k i).svc = s.svc := rfl
@[simp] theorem State.raiseFor_lastNL (k : ErrorKind) (i : Instr) : (s.raiseFor k i).lastNL = s.lastNL := rfl
@[simp] theorem State.raiseFor_out (k : ErrorKind) (i : Instr) : (s.raiseFor k i).out = s.out := rfl
@[simp] theorem State.raiseFor_unflushed (k : ErrorKind) (i : Instr) : (s.raiseFor k i).unflushed = s.unflushed := rfl
@[simp] theorem State.raiseFor_input (k : ErrorKind) (i : Instr) : (s.raiseFor k i).input = s.input := rfl
@[simp] theorem State.raiseFor_draws (k : ErrorKind) (i : Instr) : (s.raiseFor k i).draws = s.draws + 1 := rfl
@[simp] theorem State.raiseFor_reg (k : ErrorKind) (i : Instr) (r : Reg) : (s.raiseFor k i).reg r = s.reg r := rfl
@[simp] theorem State.raiseFor_memRead (k : ErrorKind) (i : Instr) (b : Word) : (s.raiseFor k i).memRead b = s.memRead b := rfl

/-! emitAll -/

@[simp] theorem State.emitAll_mem (bs : List Byte) : (s.emitAll bs).mem = s.mem := by
  induction bs generalizing s with
  | nil => rfl
  | cons b bs ih => simp [State.emitAll, ih]

@[simp] theorem State.emitAll_x (bs : List Byte) : (s.emitAll bs).x = s.x := by
  induction bs generalizing s with
  | nil => rfl
  | cons b bs ih => simp [State.emitAll, ih]

@[simp] theorem State.emitAll_pc (bs : List Byte) : (s.emitAll bs).pc = s.pc := by
  induction bs generalizing s with
  | nil => rfl
  | cons b bs ih => simp [State.emitAll, ih]

@[simp] theorem State.emitAll_cc (bs : List Byte) : (s.emitAll bs).cc = s.cc := by
  induction bs generalizing s with
  | nil => rfl
  | cons b bs ih => simp [State.emitAll, ih]

@[simp] theorem State.emitAll_status (bs : List Byte) : (s.emitAll bs).status = s.status := by
  induction bs generalizing s with
  | nil => rfl
  | cons b bs ih => simp [State.emitAll, ih]

@[simp] theorem State.emitAll_svc (bs : List Byte) : (s.emitAll bs).svc = s.svc := by
  induction bs generalizing s with
  | nil => rfl
  | cons b bs ih => simp [State.emitAll, ih]

@[simp] theorem State.emitAll_input (bs : List Byte) : (s.emitAll bs).input = s.input := by
  induction bs generalizing s with
  | nil => rfl
  | cons b bs ih => simp [State.emitAll, ih]

@[simp] theorem State.emitAll_draws (bs : List Byte) : (s.emitAll bs).draws = s.draws := by
  induction bs generalizing s with
  | nil => rfl
  | cons b bs ih => simp [State.emitAll, ih]

@[simp] theorem State.emitAll_reg (bs : List Byte) (r : Reg) : (s.emitAll bs).reg r = s.reg r := by
  simp [State.reg]

@[simp] theorem State.emitAll_memRead (bs : List Byte) (b : Word) : (s.emitAll bs).memRead b = s.memRead b := by
  simp [State.memRead]

@[simp] theorem State.emitAll_out (bs : List Byte) : (s.emitAll bs).out = s.out ++ bs := by
  induction bs generalizing s with
  | nil => simp [State.emitAll]
  | cons b bs ih => simp [State.emitAll, ih]

@[simp] theorem State.emitAll_unflushed (bs : List Byte) :
    (s.emitAll bs).unflushed = s.unflushed + bs.length := by
  induction bs generalizing s with
  | nil => simp [State.emitAll]
  | cons b bs ih => simp [State.emitAll, ih]; omega

@[simp] theorem State.emitAll_lastNL (bs : List Byte) :
    (s.emitAll bs).lastNL = (bs.getLast?.map (fun b => decide (b = 0x0A#8))).getD s.lastNL := by
  induction bs generalizing s with
  | nil => rfl
  | cons b bs ih =>
    rw [State.emitAll, ih]
    cases bs with
    | nil => rfl
    | cons c cs => simp [List.getLast?_cons]

/-- The bytes of a string emitted at once: only the output, its count and the line-start bit differ (R152). -/
theorem State.emitAll_eq (bs : List Byte) :
    s.emitAll bs = { s with
      out := s.out ++ bs
      lastNL := (bs.getLast?.map (fun b => decide (b = 0x0A#8))).getD s.lastNL
      unflushed := s.unflushed + bs.length } := by
  have h1 := State.emitAll_out s bs
  have h2 := State.emitAll_lastNL s bs
  have h3 := State.emitAll_unflushed s bs
  rw [← h1, ← h2, ← h3, ← State.emitAll_mem s bs, ← State.emitAll_x s bs, ← State.emitAll_pc s bs,
    ← State.emitAll_cc s bs, ← State.emitAll_status s bs, ← State.emitAll_svc s bs,
    ← State.emitAll_input s bs, ← State.emitAll_draws s bs]

/-! Registers read after a write -/

@[simp] theorem State.setReg_reg (i : Reg) (v : Word) (r : Reg) :
    (s.setReg i v).reg r = if r = i then v else s.reg r := by
  simp [State.reg, State.setReg, Vector.getElem_set, Fin.ext_iff, eq_comm]

@[simp] theorem State.writeResult_reg (i : Reg) (v : Word) (r : Reg) :
    (s.writeResult i v).reg r = if r = i then v else s.reg r :=
  State.setReg_reg s i v r

end

end Sys2Proof.Machine
end

