-- ==== Sys2Proof/Laws/Memory.lean ====
section
/-! SUPPORT. Memory: a read after a write, and the canonical form, which every memory operation keeps. -/

namespace Sys2Proof.Machine

theorem word_eq_of_toNat {a b : Word} (h : a.toNat = b.toNat) : a = b :=
  BitVec.eq_of_toNat_eq h

theorem Memory.read_unlist (m : Memory) (a b : Word) :
    Memory.read (Memory.unlist m a) b = if b = a then 0x0000#16 else Memory.read m b := by
  induction m with
  | nil => simp [Memory.unlist, Memory.read]
  | cons e m ih =>
    obtain ⟨k, u⟩ := e
    by_cases hk : k = a.toNat
    · by_cases hb : b = a
      · simpa [Memory.unlist, hk, hb] using ih
      · have hab : a.toNat ≠ b.toNat := fun h => hb (word_eq_of_toNat h.symm)
        simpa [Memory.unlist, Memory.read, hk, hb, hab] using ih
    · by_cases hb : b = a
      · simpa [Memory.unlist, Memory.read, hk, hb] using ih
      · simp only [Memory.unlist, hk, if_false, Memory.read, ih, hb]

theorem Memory.read_list (m : Memory) (a v b : Word) :
    Memory.read (Memory.list (Memory.unlist m a) a v) b = if b = a then v else Memory.read m b := by
  induction m with
  | nil =>
    by_cases hb : b = a
    · simp [Memory.unlist, Memory.list, Memory.read, hb]
    · have hab : a.toNat ≠ b.toNat := fun h => hb (word_eq_of_toNat h.symm)
      simp [Memory.unlist, Memory.list, Memory.read, hb, hab]
  | cons e m ih =>
    obtain ⟨k, u⟩ := e
    by_cases hk : k = a.toNat
    · by_cases hb : b = a
      · simpa [Memory.unlist, hk, hb] using ih
      · have hab : a.toNat ≠ b.toNat := fun h => hb (word_eq_of_toNat h.symm)
        simpa [Memory.unlist, Memory.read, hk, hb, hab] using ih
    · simp only [Memory.unlist, hk, if_false, Memory.list]
      by_cases hak : a.toNat < k
      · by_cases hb : b = a
        · simp [hak, Memory.read, hb]
        · have hab : a.toNat ≠ b.toNat := fun h => hb (word_eq_of_toNat h.symm)
          simp [hak, Memory.read, hb, hab, Memory.read_unlist]
      · by_cases hb : b = a
        · simpa [hak, Memory.read, hb, hk] using ih
        · simp only [hak, if_false, Memory.read, ih, hb]

/-- A write is read back at its address and leaves every other address alone, on any list. -/
theorem Memory.read_write (m : Memory) (a v b : Word) :
    Memory.read (Memory.write m a v) b = if b = a then v else Memory.read m b := by
  by_cases hv : v = 0x0000#16
  · simp [Memory.write, hv, Memory.read_unlist]
  · simp [Memory.write, hv, Memory.read_list]

/-- What the machine reads after a store. -/
@[simp] theorem State.memWrite_memRead (s : State) (a v b : Word) :
    (s.memWrite a v).memRead b = if b = a then v else s.memRead b :=
  Memory.read_write s.mem a v b

/-! The canonical form -/

theorem Memory.wfFrom_cons {n k : Nat} {u : Word} {m : Memory} :
    Memory.wfFrom n ((k, u) :: m) = true ↔
      n ≤ k ∧ k < 65536 ∧ u ≠ 0x0000#16 ∧ Memory.wfFrom (k + 1) m = true := by
  simp [Memory.wfFrom, and_assoc]

theorem Memory.wfFrom_mono {m : Memory} {i j : Nat} (hij : i ≤ j) (h : Memory.wfFrom j m = true) :
    Memory.wfFrom i m = true := by
  cases m with
  | nil => rfl
  | cons e m =>
    obtain ⟨hj, h⟩ := Memory.wfFrom_cons.1 h
    exact Memory.wfFrom_cons.2 ⟨by omega, h⟩

theorem Memory.wfFrom_unlist {m : Memory} (a : Word) {n : Nat} (h : Memory.wfFrom n m = true) :
    Memory.wfFrom n (Memory.unlist m a) = true := by
  induction m generalizing n with
  | nil => rfl
  | cons e m ih =>
    obtain ⟨k, u⟩ := e
    obtain ⟨hn, hk, hu, hm⟩ := Memory.wfFrom_cons.1 h
    by_cases hka : k = a.toNat
    · simp only [Memory.unlist, hka, if_true]
      exact Memory.wfFrom_mono (by omega) (ih hm)
    · simp only [Memory.unlist, hka, if_false]
      exact Memory.wfFrom_cons.2 ⟨hn, hk, hu, ih hm⟩

theorem Memory.wfFrom_list {m : Memory} {a v : Word} {n : Nat} (hv : v ≠ 0x0000#16) (hn : n ≤ a.toNat)
    (h : Memory.wfFrom n m = true) :
    Memory.wfFrom n (Memory.list (Memory.unlist m a) a v) = true := by
  have ha : a.toNat < 65536 := a.isLt
  induction m generalizing n with
  | nil => exact Memory.wfFrom_cons.2 ⟨hn, ha, hv, rfl⟩
  | cons e m ih =>
    obtain ⟨k, u⟩ := e
    obtain ⟨hnk, hk, hu, hm⟩ := Memory.wfFrom_cons.1 h
    by_cases hka : k = a.toNat
    · simp only [Memory.unlist, hka, if_true]
      exact ih hn (Memory.wfFrom_mono (by omega) hm)
    · simp only [Memory.unlist, hka, if_false, Memory.list]
      by_cases hak : a.toNat < k
      · simp only [hak, if_true]
        exact Memory.wfFrom_cons.2
          ⟨hn, ha, hv, Memory.wfFrom_cons.2 ⟨by omega, hk, hu, Memory.wfFrom_unlist a hm⟩⟩
      · simp only [hak, if_false]
        exact Memory.wfFrom_cons.2 ⟨hnk, hk, hu, ih (by omega) hm⟩

/-- A write keeps the canonical form. -/
theorem Memory.wf_write {m : Memory} (a v : Word) (h : Memory.wf m = true) :
    Memory.wf (Memory.write m a v) = true := by
  by_cases hv : v = 0x0000#16
  · simpa [Memory.write, hv, Memory.wf] using Memory.wfFrom_unlist a h
  · simpa [Memory.write, hv, Memory.wf] using Memory.wfFrom_list hv (Nat.zero_le _) h

/-- Loading a payload keeps the canonical form. -/
theorem Memory.wf_writeBlock {m : Memory} (a : Word) (vs : List Word) (h : Memory.wf m = true) :
    Memory.wf (Memory.writeBlock m a vs) = true := by
  induction vs generalizing m a with
  | nil => exact h
  | cons v vs ih => exact ih (a + 1) (Memory.wf_write a v h)

theorem reset_mem_wf : Memory.wf State.reset.mem = true := rfl

end Sys2Proof.Machine
end

