-- ==== Sys2Proof/Laws/PerInstr.lean ====
section
/-! SUPPORT. The family OpcodeField: the word an instruction is encoded to has that instruction's opcode in its
bits 15 to 12 (R66, R67). -/

namespace Sys2Proof.Laws.OpcodeField

/-- Bits 15 to 12 of the encoding are the opcode's. -/
def Statement (i : Instr) : Prop :=
  field (encode i) 15 12 = i.opcode.bits

theorem addReg (dr sr1 sr2 : Reg) : Statement (.addReg dr sr1 sr2) :=
  field_wordOpr_op _ _ _ _

theorem addImm (dr sr1 : Reg) (imm5 : BitVec 5) : Statement (.addImm dr sr1 imm5) :=
  field_wordOpi_op _ _ _ _

theorem andReg (dr sr1 sr2 : Reg) : Statement (.andReg dr sr1 sr2) :=
  field_wordOpr_op _ _ _ _

theorem andImm (dr sr1 : Reg) (imm5 : BitVec 5) : Statement (.andImm dr sr1 imm5) :=
  field_wordOpi_op _ _ _ _

theorem not (dr sr : Reg) : Statement (.not dr sr) :=
  field_wordNot_op _ _

theorem lea (dr : Reg) (off9 : BitVec 9) : Statement (.lea dr off9) :=
  field_wordPc9_op _ _ _

theorem ld (dr : Reg) (off9 : BitVec 9) : Statement (.ld dr off9) :=
  field_wordPc9_op _ _ _

theorem ldi (dr : Reg) (off9 : BitVec 9) : Statement (.ldi dr off9) :=
  field_wordPc9_op _ _ _

theorem ldr (dr base : Reg) (off6 : BitVec 6) : Statement (.ldr dr base off6) :=
  field_wordBase6_op _ _ _ _

theorem st (sr : Reg) (off9 : BitVec 9) : Statement (.st sr off9) :=
  field_wordPc9_op _ _ _

theorem sti (sr : Reg) (off9 : BitVec 9) : Statement (.sti sr off9) :=
  field_wordPc9_op _ _ _

theorem str (sr base : Reg) (off6 : BitVec 6) : Statement (.str sr base off6) :=
  field_wordBase6_op _ _ _ _

theorem br (nzp : BitVec 3) (off9 : BitVec 9) : Statement (.br nzp off9) :=
  field_wordBr_op _ _

theorem jmp (base : Reg) : Statement (.jmp base) :=
  field_wordJmp_op _

theorem ret : Statement .ret := rfl

theorem jsr (off11 : BitVec 11) : Statement (.jsr off11) :=
  field_wordJsr_op _

theorem jsrr (base : Reg) : Statement (.jsrr base) :=
  field_wordJsrr_op _

theorem trap (vect8 : BitVec 8) : Statement (.trap vect8) :=
  field_wordTrap_op _

theorem getc : Statement .getc := rfl

theorem out : Statement .out := rfl

theorem puts : Statement .puts := rfl

theorem in_ : Statement .in_ := rfl

theorem putsp : Statement .putsp := rfl

theorem halt : Statement .halt := rfl

theorem rti (low12 : BitVec 12) : Statement (.rti low12) :=
  field_wordAny_op _ _

theorem reserved (low12 : BitVec 12) : Statement (.reserved low12) :=
  field_wordAny_op _ _

end Sys2Proof.Laws.OpcodeField
end

