-- ==== Sys2Proof/Laws/Services.lean ====
section
/-! SUPPORT. What each shared operation of the trap services and of JSRR can do, field by field. -/

namespace Sys2Proof.Machine

section
variable (s : State)

/-- IN's start: the bytes it puts out (R163). -/
theorem State.startIn_out (prompt : List Byte) :
    (s.startIn prompt).out = s.out ++ (if s.lastNL then [] else [0x0A#8]) ++ prompt := by
  cases h : s.lastNL <;> simp [State.startIn, h]

/-- IN's start leaves every field but the output, its line-start bit and the sequencer, and flushes (R163). -/
theorem State.startIn_frame (prompt : List Byte) :
    (s.startIn prompt).mem = s.mem ∧ (s.startIn prompt).x = s.x ∧ (s.startIn prompt).pc = s.pc ∧
    (s.startIn prompt).cc = s.cc ∧ (s.startIn prompt).status = s.status ∧
    (s.startIn prompt).svc = .waitIn ∧ (s.startIn prompt).unflushed = 0 ∧
    (s.startIn prompt).input = s.input ∧ (s.startIn prompt).draws = s.draws := by
  cases h : s.lastNL <;> simp [State.startIn, h]

/-- IN's completion: the echo and the suffix (R164). -/
theorem State.finishIn_out (mode : ReadHighByte) (suffix : List Byte) (c : Byte) :
    (s.finishIn mode suffix c).out = s.out ++ [c] ++ suffix := by
  simp [State.finishIn]

/-- IN's completion: R0, and nothing of memory, pc, cc or status (R164). -/
theorem State.finishIn_frame (mode : ReadHighByte) (suffix : List Byte) (c : Byte) :
    (s.finishIn mode suffix c).mem = s.mem ∧ (s.finishIn mode suffix c).pc = s.pc ∧
    (s.finishIn mode suffix c).cc = s.cc ∧ (s.finishIn mode suffix c).status = s.status ∧
    (s.finishIn mode suffix c).svc = .idle ∧ (s.finishIn mode suffix c).unflushed = 0 ∧
    (s.finishIn mode suffix c).input = s.input ∧ (s.finishIn mode suffix c).draws = s.draws := by
  simp [State.finishIn]

theorem State.finishIn_reg (mode : ReadHighByte) (suffix : List Byte) (c : Byte) (r : Reg) :
    (s.finishIn mode suffix c).reg r = if r = 0 then readInto mode (s.reg 0) c else s.reg r := by
  simp [State.finishIn]

theorem State.finishGetc_reg (mode : ReadHighByte) (c : Byte) (r : Reg) :
    (s.finishGetc mode c).reg r = if r = 0 then readInto mode (s.reg 0) c else s.reg r :=
  State.setReg_reg s 0 (readInto mode (s.reg 0) c) r

/-- `awaitByte` answers a next state exactly when a byte is there (R153). -/
theorem State.awaitByte_next {finish : Byte → State → State} {t : State}
    (h : s.awaitByte finish = .next t) :
    ∃ c rest, s.input = c :: rest ∧ t = finish c { s with input := rest } := by
  unfold State.awaitByte at h
  split at h
  · cases h
  · rename_i c rest hin
    cases h
    exact ⟨c, rest, hin, rfl⟩

/-- JSRR links in either order (R143). -/
theorem State.linkAndJump_reg (o : LinkOrder) (base r : Reg) :
    (s.linkAndJump o base).reg r = if r = 7 then s.pc else s.reg r := by
  simp [State.linkAndJump]

/-- The two orders of JSRR agree but for JSRR R7 (R143). -/
theorem State.linkAndJump_pc (o : LinkOrder) (base : Reg) :
    (s.linkAndJump o base).pc =
      if base = 7 then (match o with | .baseFirst => s.reg 7 | .linkFirst => s.pc) else s.reg base := by
  cases o <;> by_cases h : base = 7 <;> simp [State.linkAndJump, h]

/-- JSRR writes R7 and pc and nothing else (R143). -/
theorem State.linkAndJump_frame (o : LinkOrder) (base : Reg) :
    (s.linkAndJump o base).mem = s.mem ∧ (s.linkAndJump o base).cc = s.cc ∧
    (s.linkAndJump o base).status = s.status ∧ (s.linkAndJump o base).svc = s.svc ∧
    (s.linkAndJump o base).lastNL = s.lastNL ∧ (s.linkAndJump o base).out = s.out ∧
    (s.linkAndJump o base).unflushed = s.unflushed ∧ (s.linkAndJump o base).input = s.input ∧
    (s.linkAndJump o base).draws = s.draws :=
  ⟨rfl, rfl, rfl, rfl, rfl, rfl, rfl, rfl, rfl⟩

/-- R0's low byte is the byte read, whatever `READ_HIGH_BYTE` is (R156). -/
theorem lo_readInto (mode : ReadHighByte) (old : Word) (c : Byte) : lo (readInto mode old c) = c := by
  cases mode with
  | zero => ext i h; simp [lo, readInto, zext, h]
  | preserve => ext i h; simp [lo, readInto, zext]; interval_cases i <;> simp

/-- R0's high byte is cleared or kept (R156). -/
theorem hi_readInto (mode : ReadHighByte) (old : Word) (c : Byte) :
    hi (readInto mode old c) = match mode with | .zero => 0x00#8 | .preserve => hi old := by
  cases mode with
  | zero => ext i h; simp [hi, readInto, zext]
  | preserve => ext i h; simp [hi, readInto, zext]; interval_cases i <;> simp

end

end Sys2Proof.Machine
end

