-- ==== Sys2Proof/Laws/Step.lean ====
section
/-! SUPPORT. What a step can do, said once: by inversion of `step`, and for the three meanings that branch. -/

namespace Sys2Proof.Machine

/-- A step exists only while the core runs (R95, R104). -/
theorem step_running {s t : State} (h : step s = .next t) : s.status = .running := by
  unfold step at h
  split at h
  · assumption
  · cases h
  · cases h

/-- While the core runs, the sequencer selects the step (R95, R154). -/
theorem step_of_running {s : State} (h : s.status = .running) :
    step s = match s.svc with
      | .idle => instrStep s
      | .waitGetc => microGetc s
      | .waitIn => microIn s
      | .puts a => microPuts a s
      | .putsp a => microPutsp a s := by
  cases hs : s.svc <;> simp only [step, h, hs]

/-- Between instructions a step is an instruction step (R95). -/
theorem step_of_ready {s : State} (h : s.ready) : step s = instrStep s := by
  rw [step_of_running h.1, h.2]

/-- Everything a step can do: reject the fetched word, execute its instruction, or perform the micro-step of the
service in progress (R95, R106, R154). -/
theorem step_inv {s t : State} (h : step s = .next t) :
    s.status = .running ∧
    ((s.svc = .idle ∧
        ((∃ k, decode (s.memRead s.pc) = .error k ∧ t = s.advance.raise k (s.memRead s.pc) s.pc) ∨
         (∃ i, decode (s.memRead s.pc) = .ok i ∧ exec i s.advance = .next t))) ∨
     (s.svc = .waitGetc ∧ ∃ c rest, s.input = c :: rest ∧
        t = ({ s with input := rest } : State).finishGetc Config.readHighByte c) ∨
     (s.svc = .waitIn ∧ ∃ c rest, s.input = c :: rest ∧
        t = ({ s with input := rest } : State).finishIn Config.readHighByte Config.inEchoSuffix c) ∨
     (∃ a, s.svc = .puts a ∧ microPuts a s = .next t) ∨
     (∃ a, s.svc = .putsp a ∧ microPutsp a s = .next t)) := by
  have hr := step_running h
  refine ⟨hr, ?_⟩
  rw [step_of_running hr] at h
  cases hs : s.svc with
  | idle =>
    simp only [hs, instrStep, State.fetchWord] at h
    refine .inl ⟨rfl, ?_⟩
    cases hd : decode (s.memRead s.pc) with
    | error k =>
      simp only [hd] at h
      cases h
      exact .inl ⟨k, rfl, rfl⟩
    | ok i =>
      simp only [hd] at h
      exact .inr ⟨i, rfl, h⟩
  | waitGetc =>
    simp only [hs, microGetc] at h
    exact .inr (.inl ⟨rfl, State.awaitByte_next _ h⟩)
  | waitIn =>
    simp only [hs, microIn] at h
    obtain ⟨c, rest, hi, rfl⟩ := State.awaitByte_next _ h
    exact .inr (.inr (.inl ⟨rfl, c, rest, hi, by simp [hs]⟩))
  | puts a =>
    simp only [hs] at h
    exact .inr (.inr (.inr (.inl ⟨a, rfl, h⟩)))
  | putsp a =>
    simp only [hs] at h
    exact .inr (.inr (.inr (.inr ⟨a, rfl, h⟩)))

/-- A run of `n + 1` steps is a step and a run of `n`. -/
theorem run_succ {s t : State} (n : Nat) (h : step s = .next t) :
    Host.Core.run Sys2Proof.core (n + 1) s = Host.Core.run Sys2Proof.core n t := by
  have h' : Sys2Proof.core.step s = .next t := h
  simp only [Host.Core.run, h']

/-! The meanings that branch -/

/-- What BR can do: its error, or a jump to the target or to the next instruction (R140). -/
theorem exec_br_cases {nzp : BitVec 3} {off9 : BitVec 9} {s t : State} (h : exec (.br nzp off9) s = .next t) :
    (nzp = 0b000#3 ∧ t = s.raiseFor .zeroBranchCondition (.br nzp off9)) ∨
    (nzp ≠ 0b000#3 ∧ t = s.setPc (if branchTaken s.cc nzp then s.pcRel off9 else s.pc)) := by
  change execBr _ _ _ = _ at h
  unfold execBr at h
  split at h
  · cases h
    exact .inl ⟨by assumption, rfl⟩
  · rename_i h1
    split at h
    · rename_i h2
      cases h
      exact .inr ⟨h1, by simp [h2]⟩
    · rename_i h2
      cases h
      exact .inr ⟨h1, by simp [h2]; rfl⟩

/-- What TRAP can do: start a service or raise the error of an unknown vector (R150, R168). -/
theorem exec_trap_cases {v : BitVec 8} {s t : State} (h : exec (.trap v) s = .next t) :
    (Service.ofVector v = none ∧ t = s.raiseFor .unknownTrapVector (.trap v)) ∨
    (∃ x, Service.ofVector v = some x ∧ t = s.startService x) := by
  change execTrap _ _ = _ at h
  unfold execTrap at h
  split at h
  · rename_i x hx
    cases h
    exact .inr ⟨x, hx, rfl⟩
  · rename_i hx
    cases h
    exact .inl ⟨hx, rfl⟩

/-- What no start of a service writes: memory, a register, `pc`, `cc`, the input and the model's counter (R170). -/
theorem startService_frame (s : State) (x : Service) :
    (s.startService x).mem = s.mem ∧ (s.startService x).x = s.x ∧ (s.startService x).pc = s.pc ∧
    (s.startService x).cc = s.cc ∧ (s.startService x).input = s.input ∧
    (s.startService x).draws = s.draws := by
  cases x
  case inp =>
    have h := s.startIn_frame Config.inPrompt
    exact ⟨h.1, h.2.1, h.2.2.1, h.2.2.2.1, h.2.2.2.2.2.2.2.1, h.2.2.2.2.2.2.2.2⟩
  all_goals exact ⟨rfl, rfl, rfl, rfl, rfl, rfl⟩

/-- What the micro-step of PUTS can do (R159). -/
theorem microPuts_cases {a : Word} {s t : State} (h : microPuts a s = .next t) :
    (lo (s.memRead a) = 0x00#8 ∧ t = s.flush.setSvc .idle) ∨
    (lo (s.memRead a) ≠ 0x00#8 ∧ t = (s.emit (lo (s.memRead a))).setSvc (.puts (a + 1))) := by
  simp only [microPuts] at h
  split at h
  · rename_i h1
    cases h
    exact .inl ⟨h1, rfl⟩
  · rename_i h1
    cases h
    exact .inr ⟨h1, rfl⟩

/-- What the micro-step of PUTSP can do (R166). -/
theorem microPutsp_cases {a : Word} {s t : State} (h : microPutsp a s = .next t) :
    (lo (s.memRead a) = 0x00#8 ∧ t = s.flush.setSvc .idle) ∨
    (lo (s.memRead a) ≠ 0x00#8 ∧ hi (s.memRead a) = 0x00#8 ∧
      t = ((s.emit (lo (s.memRead a))).flush).setSvc .idle) ∨
    (lo (s.memRead a) ≠ 0x00#8 ∧ hi (s.memRead a) ≠ 0x00#8 ∧
      t = ((s.emit (lo (s.memRead a))).emit (hi (s.memRead a))).setSvc (.putsp (a + 1))) := by
  simp only [microPutsp] at h
  split at h
  · rename_i h1
    cases h
    exact .inl ⟨h1, rfl⟩
  · rename_i h1
    split at h
    · rename_i h2
      cases h
      exact .inr (.inl ⟨h1, h2, rfl⟩)
    · rename_i h2
      cases h
      exact .inr (.inr ⟨h1, h2, rfl⟩)

/-- What taking an instruction error leaves alone, in the words of the statements (R99, R181). -/
theorem errorTaken_raise (s : State) (k : ErrorKind) (w a : Word) : ErrorTaken k w a s (s.raise k w a) :=
  ⟨rfl, fun _ => rfl, rfl, fun _ => rfl, ⟨rfl, rfl, rfl, rfl⟩, rfl⟩

end Sys2Proof.Machine
end

