-- ==== Sys2Proof/Tests/Slice0.lean ====
section
/-! SUPPORT. Tests: well-formedness, decoding of words written out bit by bit, single steps, the loader, and a
witness for the hypotheses of each statement. Expected results are the spec's own: 95_test_vectors.md (its part 1
is the source's examples, its part 2 is derived by the spec) or the rule named. -/

namespace Sys2Proof.Tests

open Sys2Proof Sys2Proof.Machine

/-- The reset state with one word at 0x3000 and `pc` there, the vectors' convention (95_test_vectors.md). -/
def start (w : Word) : State :=
  ({ State.reset with pc := 0x3000#16 } : State).memWrite 0x3000#16 w

/-- A step exists and its state passes the check. -/
def stepYields (s : State) (check : State → Bool) : Bool :=
  match step s with
  | .next t => check t
  | .fault _ => false
  | .refused _ => false

/-- There is no step, for the reason given. -/
def stepFaults (s : State) (reason : Fault) : Bool :=
  match step s with
  | .next _ => false
  | .fault f => f == reason
  | .refused _ => false

/-! WellFormed: one smoke test for each check, and its neighbours that pass -/

theorem test_wf_refuses_jmp_r7 : (Instr.jmp 7).wf = false := by decide
theorem test_wf_accepts_jmp_r6_and_ret : (Instr.jmp 6).wf = true ∧ Instr.ret.wf = true := by decide
theorem test_wf_refuses_trap_of_a_service :
    (Instr.trap 0x20#8).wf = false ∧ (Instr.trap 0x21#8).wf = false ∧ (Instr.trap 0x22#8).wf = false ∧
    (Instr.trap 0x23#8).wf = false ∧ (Instr.trap 0x24#8).wf = false ∧ (Instr.trap 0x25#8).wf = false := by
  decide
theorem test_wf_accepts_trap_of_other_vectors :
    (Instr.trap 0x1F#8).wf = true ∧ (Instr.trap 0x26#8).wf = true := by decide

/-! Decoding: for every constructor a word written out from its format (R69 to R79) -/

theorem test_decode_add_reg : decode 0b0001_001_010_0_00_011#16 = .ok (.addReg 1 2 3) := by decide
theorem test_decode_add_imm : decode 0b0001_110_001_1_10101#16 = .ok (.addImm 6 1 0b10101#5) := by decide
theorem test_decode_and_reg : decode 0b0101_000_001_0_00_010#16 = .ok (.andReg 0 1 2) := by decide
theorem test_decode_and_imm : decode 0b0101_000_111_1_10000#16 = .ok (.andImm 0 7 0b10000#5) := by decide
theorem test_decode_not : decode 0b1001_100_101_111111#16 = .ok (.not 4 5) := by decide
theorem test_decode_lea : decode 0b1110_011_111111111#16 = .ok (.lea 3 0b111111111#9) := by decide
theorem test_decode_ld : decode 0b0010_001_000000101#16 = .ok (.ld 1 5#9) := by decide
theorem test_decode_ldi : decode 0b1010_010_000000001#16 = .ok (.ldi 2 1#9) := by decide
theorem test_decode_ldr : decode 0b0110_011_100_111111#16 = .ok (.ldr 3 4 0b111111#6) := by decide
theorem test_decode_st : decode 0b0011_000_111111110#16 = .ok (.st 0 0b111111110#9) := by decide
theorem test_decode_sti : decode 0b1011_001_000000011#16 = .ok (.sti 1 3#9) := by decide
theorem test_decode_str : decode 0b0111_010_110_000001#16 = .ok (.str 2 6 1#6) := by decide
theorem test_decode_br : decode 0b0000_010_111111101#16 = .ok (.br 0b010#3 0b111111101#9) := by decide
theorem test_decode_jmp : decode 0b1100_000_010_000000#16 = .ok (.jmp 2) := by decide
theorem test_decode_ret : decode 0b1100_000_111_000000#16 = .ok .ret := by decide
theorem test_decode_jsr : decode 0b0100_1_10000000001#16 = .ok (.jsr 0b10000000001#11) := by decide
theorem test_decode_jsrr : decode 0b0100_0_00_011_000000#16 = .ok (.jsrr 3) := by decide
theorem test_decode_trap : decode 0b1111_0000_10011001#16 = .ok (.trap 0x99#8) := by decide
theorem test_decode_getc : decode 0b1111_0000_00100000#16 = .ok .getc := by decide
theorem test_decode_out : decode 0b1111_0000_00100001#16 = .ok .out := by decide
theorem test_decode_puts : decode 0b1111_0000_00100010#16 = .ok .puts := by decide
theorem test_decode_in : decode 0b1111_0000_00100011#16 = .ok .in_ := by decide
theorem test_decode_putsp : decode 0b1111_0000_00100100#16 = .ok .putsp := by decide
theorem test_decode_halt : decode 0b1111_0000_00100101#16 = .ok .halt := by decide
theorem test_decode_rti : decode 0b1000_101010101010#16 = .ok (.rti 0b101010101010#12) := by decide
theorem test_decode_reserved : decode 0b1101_101010111100#16 = .ok (.reserved 0xABC#12) := by decide

/-- Every padding check of R82 refuses a word with one wrong bit at each end of the padding. -/
theorem test_decode_refuses_padding :
    decode 0b0001_001_010_0_01_001#16 = .error .reservedBits ∧
    decode 0b0001_001_010_0_10_001#16 = .error .reservedBits ∧
    decode 0b0101_000_001_0_01_010#16 = .error .reservedBits ∧
    decode 0b1001_100_101_111110#16 = .error .reservedBits ∧
    decode 0b1001_100_101_011111#16 = .error .reservedBits ∧
    decode 0b1100_001_010_000000#16 = .error .reservedBits ∧
    decode 0b1100_000_010_000001#16 = .error .reservedBits ∧
    decode 0b0100_0_01_011_000000#16 = .error .reservedBits ∧
    decode 0b0100_0_10_011_000000#16 = .error .reservedBits ∧
    decode 0b0100_0_00_011_100000#16 = .error .reservedBits ∧
    decode 0b1111_0001_00100101#16 = .error .reservedBits ∧
    decode 0b1111_1000_10011001#16 = .error .reservedBits := by decide

/-- The other kinds of R87, at the ends of each range (R83, R84, R168). -/
theorem test_classify_kinds :
    classify 0x0000#16 = .error .zeroBranchCondition ∧ classify 0x01FF#16 = .error .zeroBranchCondition ∧
    classify 0x0200#16 = .ok (.br 0b001#3 0#9) ∧
    classify 0x8000#16 = .error .rti ∧ classify 0x8FFF#16 = .error .rti ∧
    classify 0xD000#16 = .error .reservedOpcode ∧ classify 0xDFFF#16 = .error .reservedOpcode ∧
    classify 0xF000#16 = .error .unknownTrapVector ∧ classify 0xF01F#16 = .error .unknownTrapVector ∧
    classify 0xF020#16 = .ok .getc ∧ classify 0xF025#16 = .ok .halt ∧
    classify 0xF026#16 = .error .unknownTrapVector ∧ classify 0xF0FF#16 = .error .unknownTrapVector := by decide

/-! Single steps (95_test_vectors.md, part 2) -/

theorem test_add_reg_overflow_wraps :
    stepYields (((start 0x1283#16).setReg 2 0x7FFF#16).setReg 3 0x0001#16)
      (fun t => t.reg 1 == 0x8000#16 && t.cc == .n && t.pc == 0x3001#16) = true := by decide
theorem test_add_reg_same_register :
    stepYields ((start 0x1241#16).setReg 1 0x4000#16)
      (fun t => t.reg 1 == 0x8000#16 && t.cc == .n) = true := by decide
theorem test_add_imm_minus_16 :
    stepYields ((start 0x1270#16).setReg 1 0x0010#16)
      (fun t => t.reg 1 == 0x0000#16 && t.cc == .z) = true := by decide
theorem test_and_reg :
    stepYields (((start 0x5042#16).setReg 1 0x8F0F#16).setReg 2 0xF0FF#16)
      (fun t => t.reg 0 == 0x800F#16 && t.cc == .n) = true := by decide
theorem test_and_imm_is_sign_extended :
    stepYields ((start 0x5030#16).setReg 0 0x1234#16)
      (fun t => t.reg 0 == 0x1230#16 && t.cc == .p) = true := by decide
theorem test_not :
    stepYields ((start 0x997F#16).setReg 5 0x8000#16)
      (fun t => t.reg 4 == 0x7FFF#16 && t.cc == .p) = true := by decide
theorem test_not_in_place :
    stepYields ((start 0x927F#16).setReg 1 0x00FF#16)
      (fun t => t.reg 1 == 0xFF00#16 && t.cc == .n) = true := by decide
theorem test_lea_keeps_cc :
    stepYields ((start 0xE002#16).setcc 0x8000#16)
      (fun t => t.reg 0 == 0x3003#16 && t.cc == .n) = true := by decide
theorem test_lea_wraps :
    stepYields ({ State.reset with pc := 0xFFF0#16, mem := [(0xFFF0, 0xE0FF#16)] } : State)
      (fun t => t.reg 0 == 0x00F0#16 && t.cc == .z && t.pc == 0xFFF1#16) = true := by decide
theorem test_ld :
    stepYields ((start 0x2205#16).memWrite 0x3006#16 0x8001#16)
      (fun t => t.reg 1 == 0x8001#16 && t.cc == .n) = true := by decide
theorem test_ld_at_top_wraps :
    stepYields ({ State.reset with pc := 0xFFFF#16, mem := [(0xFFFF, 0x23FF#16)] } : State)
      (fun t => t.reg 1 == 0x23FF#16 && t.cc == .p && t.pc == 0x0000#16) = true := by decide
theorem test_ldi :
    stepYields (((start 0xA401#16).memWrite 0x3002#16 0x4000#16).memWrite 0x4000#16 0x1111#16)
      (fun t => t.reg 2 == 0x1111#16 && t.cc == .p) = true := by decide
theorem test_ldi_pointer_is_own_word :
    stepYields ((start 0xA5FF#16).setcc 0x8000#16)
      (fun t => t.reg 2 == 0x0000#16 && t.cc == .z) = true := by decide
theorem test_ldr_negative_offset :
    stepYields (((start 0x673F#16).setReg 4 0x4001#16).memWrite 0x4000#16 0x0042#16)
      (fun t => t.reg 3 == 0x0042#16 && t.cc == .p) = true := by decide
theorem test_ldr_base_is_destination :
    stepYields (((start 0x6900#16).setReg 4 0x4000#16).memWrite 0x4000#16 0xFFFE#16)
      (fun t => t.reg 4 == 0xFFFE#16 && t.cc == .n) = true := by decide
theorem test_st_backward :
    stepYields ((start 0x31FE#16).setReg 0 0x1234#16)
      (fun t => t.memRead 0x2FFF#16 == 0x1234#16 && t.cc == .z && t.reg 0 == 0x1234#16) = true := by decide
theorem test_sti :
    stepYields (((start 0xB203#16).setReg 1 0xBEEF#16).memWrite 0x3004#16 0x5000#16)
      (fun t => t.memRead 0x5000#16 == 0xBEEF#16 && t.memRead 0x3004#16 == 0x5000#16) = true := by decide
theorem test_sti_self_pointer :
    stepYields (((start 0xB201#16).setReg 1 0xBEEF#16).memWrite 0x3002#16 0x3002#16)
      (fun t => t.memRead 0x3002#16 == 0xBEEF#16) = true := by decide
/-- The source's example S6: 65535 + 1 is address 0. -/
theorem test_str_wraps_upward :
    stepYields (((start 0x7F81#16).setReg 6 0xFFFF#16).setReg 7 0xAAAA#16)
      (fun t => t.memRead 0x0000#16 == 0xAAAA#16) = true := by decide
theorem test_str_wraps_downward :
    stepYields ((start 0x7FBF#16).setReg 7 0xAAAA#16)
      (fun t => t.memRead 0xFFFF#16 == 0xAAAA#16) = true := by decide
theorem test_brz_taken :
    stepYields ({ State.reset with pc := 0x3005#16, mem := [(0x3005, 0x05FD#16)] } : State)
      (fun t => t.pc == 0x3003#16 && t.cc == .z) = true := by decide
theorem test_brnp_with_z_not_taken :
    stepYields (start 0x0A03#16) (fun t => t.pc == 0x3001#16 && t.status == .running) = true := by decide
theorem test_jmp : stepYields ((start 0xC080#16).setReg 2 0x4000#16) (fun t => t.pc == 0x4000#16) = true := by
  decide
theorem test_ret : stepYields ((start 0xC1C0#16).setReg 7 0x3001#16) (fun t => t.pc == 0x3001#16) = true := by
  decide
theorem test_jsr_backward :
    stepYields (start 0x4C00#16) (fun t => t.reg 7 == 0x3001#16 && t.pc == 0x2C01#16) = true := by decide
theorem test_jsrr :
    stepYields ((start 0x40C0#16).setReg 3 0x5000#16) (fun t => t.reg 7 == 0x3001#16) = true := by decide
/-- JSRR R7 in both orders, from the state after the fetch (R143). -/
theorem test_jsrr_r7_both_orders :
    let s := ((start 0x41C0#16).setReg 7 0x5000#16).advance
    ((s.linkAndJump .linkFirst 7).reg 7 = 0x3001#16 ∧ (s.linkAndJump .linkFirst 7).pc = 0x3001#16) ∧
    ((s.linkAndJump .baseFirst 7).reg 7 = 0x3001#16 ∧ (s.linkAndJump .baseFirst 7).pc = 0x5000#16) := by decide
/-- The source's example S4. -/
theorem test_trap_unknown_vector :
    stepYields (start 0xF099#16)
      (fun t => t.status == .error .unknownTrapVector 0xF099#16 0x3000#16 && t.status.exitCode == some 3) = true := by
  decide
theorem test_getc_waits_without_a_byte :
    stepYields (start 0xF020#16)
      (fun t => t.svc == .waitGetc && t.status == .running && t.out == [] && stepFaults t .awaitingInput) =
      true := by decide
theorem test_getc_both_high_bytes :
    ((start 0xF020#16).setReg 0 0x1234#16 |>.finishGetc .zero 0x41#8).reg 0 = 0x0041#16 ∧
    ((start 0xF020#16).setReg 0 0x1234#16 |>.finishGetc .preserve 0x41#8).reg 0 = 0x1241#16 := by decide
theorem test_out_writes_the_low_byte :
    stepYields ((start 0xF021#16).setReg 0 0x0A68#16)
      (fun t => t.out == [0x68#8] && t.pc == 0x3001#16 && !t.lastNL && t.svc == .idle) = true := by decide
theorem test_puts_micro_step_ignores_the_high_byte :
    stepYields (({ start 0xF022#16 with svc := .puts 0x4000#16 } : State).memWrite 0x4000#16 0x4168#16)
      (fun t => t.out == [0x68#8] && t.svc == .puts 0x4001#16) = true := by decide
theorem test_puts_micro_step_ends_at_a_zero_low_byte :
    stepYields (({ start 0xF022#16 with svc := .puts 0x4000#16 } : State).memWrite 0x4000#16 0xFF00#16)
      (fun t => t.out == [] && t.svc == .idle) = true := by decide
/-- IN after "ok": a line feed, the prompt, then a wait; at a line start no line feed (R163). -/
theorem test_in_prompts_on_its_own_line :
    ((((start 0xF023#16).emit 0x6F#8).emit 0x6B#8).startIn [0x3F#8]).out = [0x6F#8, 0x6B#8, 0x0A#8, 0x3F#8] ∧
    ((start 0xF023#16).startIn [0x3F#8]).out = [0x3F#8] := by decide
theorem test_in_echoes :
    let t := (start 0xF023#16).finishIn .zero [0x0A#8] 0x79#8
    t.out = [0x79#8, 0x0A#8] ∧ t.reg 0 = 0x0079#16 ∧ t.lastNL = true ∧ t.svc = .idle := by decide
theorem test_putsp_micro_step_low_byte_first :
    stepYields (({ start 0xF024#16 with svc := .putsp 0x4000#16 } : State).memWrite 0x4000#16 0x6968#16)
      (fun t => t.out == [0x68#8, 0x69#8] && t.svc == .putsp 0x4001#16) = true := by decide
theorem test_putsp_micro_step_ends_at_a_zero_high_byte :
    stepYields (({ start 0xF024#16 with svc := .putsp 0x4000#16 } : State).memWrite 0x4000#16 0x0021#16)
      (fun t => t.out == [0x21#8] && t.svc == .idle) = true := by decide
theorem test_halt :
    stepYields (start 0xF025#16)
      (fun t => t.status == .halted && t.pc == 0x3001#16 && t.out == [] && stepFaults t .runEnded) = true := by
  decide
theorem test_rti :
    stepYields (start 0x8000#16) (fun t => t.status == .error .rti 0x8000#16 0x3000#16) = true := by decide
theorem test_reserved :
    stepYields (start 0xDABC#16) (fun t => t.status == .error .reservedOpcode 0xDABC#16 0x3000#16) = true := by
  decide
/-- The source's example S3: no register is changed. -/
theorem test_add_padding_errs :
    stepYields (((start 0x1289#16).setReg 1 0x0009#16).setReg 2 0x0001#16)
      (fun t => t.status == .error .reservedBits 0x1289#16 0x3000#16 && t.reg 1 == 0x0009#16) = true := by decide
/-- Zeroed memory is not executable (95_test_vectors.md 2.3). -/
theorem test_word_zero_errs :
    stepYields (start 0x0000#16)
      (fun t => t.status == .error .zeroBranchCondition 0x0000#16 0x3000#16) = true := by decide

/-! Memory and the host's two functions -/

/-- Writing 0x0000 leaves the address unlisted, and the list stays sorted (log 1). -/
theorem test_memory_is_canonical :
    Memory.write (Memory.write (Memory.write [] 0x4000#16 1#16) 0x3000#16 2#16) 0x4000#16 0#16 =
      [(0x3000, 2#16)] := by decide
theorem test_decode_table_word :
    decodeTableWord 16 0xF025 = some .halt ∧ decodeTableWord 16 0x1289 = none := by decide
theorem test_with_fetch_word_runs_the_word :
    stepYields (State.reset.withFetchWord 16 0x126F) (fun t => t.reg 1 == 0x000F#16 && t.pc == 0x0001#16) = true := by
  decide

/-! The loader (95_test_vectors.md, part 1; S1 is the source's) -/

/-- Example S1: the image runs its HALT in one step. -/
theorem test_load_s1 :
    (match loadImage [0x30#8, 0x00#8, 0xF0#8, 0x25#8] with
      | .ok s => s.pc == 0x3000#16 && stepYields s (fun t => t.status.exitCode == some 0 && t.out == [])
      | .error _ => false) = true := by decide
theorem test_load_rejects :
    loadImage [] = .error .emptyFile ∧ loadImage [0x30#8] = .error .truncatedHeader ∧
    loadImage [0x30#8, 0x00#8] = .error .noPayload ∧
    loadImage [0x30#8, 0x00#8, 0xF0#8] = .error .oddLength ∧
    loadImage [0xFF#8, 0xFF#8, 0xF0#8, 0x25#8, 0x00#8, 0x00#8] = .error .payloadTooLong := by decide
theorem test_load_up_to_the_last_word :
    (match loadImage [0xFF#8, 0xFF#8, 0xF0#8, 0x25#8] with
      | .ok s => s.mem == [(0xFFFF, 0xF025#16)] && s.pc == 0xFFFF#16
      | .error _ => false) = true := by decide

/-! Witnesses: for each statement with hypotheses, a concrete state and operands that meet all of them together,
once for each clause that has hypotheses of its own -/

theorem start_ready (w : Word) : (start w).ready := ⟨rfl, rfl⟩

theorem start_fetches (w : Word) : (start w).memRead (start w).pc = w := by
  show ((({ State.reset with pc := 0x3000#16 } : State)).memWrite 0x3000#16 w).memRead 0x3000#16 = w
  rw [State.memWrite_memRead, if_pos rfl]

/-- The state in which GETC or IN waits and the host has supplied one byte. -/
def waiting (v : Svc) (input : List Byte) : State :=
  { start 0xF025#16 with svc := v, input := input }

theorem witness_DecodeAndEncodeAgree :
    (Instr.addReg 1 2 3).wf = true ∧ (Instr.trap 0xFF#8).wf = true ∧
    classify 0x1283#16 = .ok (.addReg 1 2 3) := by decide

theorem witness_DecodedInstructionsAreWellFormed :
    decode 0x1283#16 = .ok (.addReg 1 2 3) ∧ decode 0xF000#16 = .ok (.trap 0#8) := by decide

/-- Every word has a state that fetches it; the ends of each range are in `test_decode_refuses_padding` and
`test_classify_kinds`. -/
theorem witness_InstructionErrorsArePreciselyTheListedWords :
    ∀ w : Word, (start w).ready ∧ (start w).memRead (start w).pc = w :=
  fun w => ⟨start_ready w, start_fetches w⟩

theorem witness_StepRunsTheDecodedInstruction :
    (start 0x1283#16).ready ∧
    decode ((start 0x1283#16).memRead (start 0x1283#16).pc) = .ok (.addReg 1 2 3) :=
  ⟨start_ready _, by decide⟩

theorem witness_RejectedWordsRaiseAndExecuteNothing :
    (start 0xF026#16).ready ∧
    classify ((start 0xF026#16).memRead (start 0xF026#16).pc) = .error .unknownTrapVector :=
  ⟨start_ready _, by decide⟩

theorem witness_StepsExistExactlyWhileRunningAndNotBlocked :
    (∃ t, step (start 0x1283#16) = .next t) ∧ (start 0x1283#16).status = .running ∧ ¬ (start 0x1283#16).blocked :=
  ⟨⟨_, rfl⟩, rfl, fun h => by rcases h.1 with h | h <;> cases h⟩

theorem witness_EndedAndBlockedStatesStopByName :
    ({ start 0xF025#16 with status := .halted } : State).status ≠ .running ∧
    ((waiting .waitGetc []).status = .running ∧ (waiting .waitGetc []).blocked) ∧
    ((waiting .waitIn []).status = .running ∧ (waiting .waitIn []).blocked) :=
  ⟨by decide, ⟨rfl, .inl rfl, rfl⟩, ⟨rfl, .inr rfl, rfl⟩⟩

theorem witness_RunsEndOnlyByHaltOrInstructionError :
    (∃ t, step (start 0xF025#16) = .next t ∧ t.status = .halted) ∧
    (∃ t, step (start 0xF026#16) = .next t ∧
      t.status = .error .unknownTrapVector 0xF026#16 0x3000#16) ∧
    (∃ t, step (start 0x1283#16) = .next t ∧ t.status = .running) :=
  ⟨⟨_, rfl, rfl⟩, ⟨_, rfl, rfl⟩, ⟨_, rfl, rfl⟩⟩

/-- All three clauses: immediate mode, register mode, and both padding bits. -/
theorem witness_AddWords :
    (∀ w : Word, (start w).ready ∧ (start w).memRead (start w).pc = w) ∧
    [0x127F#16, 0x1241#16, 0x1249#16, 0x1251#16].all (fun w =>
      w.extractLsb 15 12 == 0b0001#4 && (w.extractLsb 11 9).toNat == (1 : Reg).val &&
        (w.extractLsb 8 6).toNat == (1 : Reg).val && (w.extractLsb 2 0).toNat < 8) = true :=
  ⟨fun w => ⟨start_ready w, start_fetches w⟩, by decide⟩

theorem witness_AndWords :
    (∀ w : Word, (start w).ready ∧ (start w).memRead (start w).pc = w) ∧
    [0x527F#16, 0x5241#16, 0x5249#16, 0x5251#16].all (fun w =>
      w.extractLsb 15 12 == 0b0101#4 && (w.extractLsb 11 9).toNat == (1 : Reg).val &&
        (w.extractLsb 8 6).toNat == (1 : Reg).val && (w.extractLsb 2 0).toNat < 8) = true :=
  ⟨fun w => ⟨start_ready w, start_fetches w⟩, by decide⟩

theorem witness_NotWords :
    (∀ w : Word, (start w).ready ∧ (start w).memRead (start w).pc = w) ∧
    [0x997F#16, 0x997E#16].all (fun w =>
      w.extractLsb 15 12 == 0b1001#4 && (w.extractLsb 11 9).toNat == (4 : Reg).val &&
        (w.extractLsb 8 6).toNat == (5 : Reg).val) = true :=
  ⟨fun w => ⟨start_ready w, start_fetches w⟩, by decide⟩

theorem witness_SoftwareNegationAndShift :
    ((start 0x927F#16).memWrite 0x3001#16 0x1261#16).ready ∧
    decode (((start 0x927F#16).memWrite 0x3001#16 0x1261#16).memRead 0x3000#16) = .ok (.not 1 1) ∧
    decode (((start 0x927F#16).memWrite 0x3001#16 0x1261#16).memRead 0x3001#16) = .ok (.addImm 1 1 1#5) ∧
    (start 0x1241#16).ready ∧ decode ((start 0x1241#16).memRead 0x3000#16) = .ok (.addReg 1 1 1) :=
  ⟨⟨rfl, rfl⟩, by decide, by decide, start_ready _, by decide⟩

theorem witness_LeaWords :
    (start 0xE1FF#16).ready ∧ (start 0xE1FF#16).memRead (start 0xE1FF#16).pc = 0xE1FF#16 ∧
    (0xE1FF#16).extractLsb 15 12 = 0b1110#4 ∧ ((0xE1FF#16).extractLsb 11 9).toNat = (0 : Reg).val :=
  ⟨start_ready _, start_fetches _, by decide, by decide⟩

/-- LD, LDI and LDR, each with the address its case names. -/
theorem witness_LoadWords :
    (∀ w : Word, (start w).ready ∧ (start w).memRead (start w).pc = w) ∧
    ([0x2205#16, 0xA205#16, 0x6205#16].all (fun w =>
      (w.extractLsb 11 9).toNat == (1 : Reg).val && (w.extractLsb 8 6).toNat == (0 : Reg).val)) = true ∧
    (0x2205#16).extractLsb 15 12 = 0b0010#4 ∧
    0x3006#16 = 0x3000#16 + 1 + BitVec.ofInt 16 ((0x2205#16).extractLsb 8 0).toInt ∧
    (0xA205#16).extractLsb 15 12 = 0b1010#4 ∧
    0x0000#16 =
      (start 0xA205#16).memRead (0x3000#16 + 1 + BitVec.ofInt 16 ((0xA205#16).extractLsb 8 0).toInt) ∧
    (0x6205#16).extractLsb 15 12 = 0b0110#4 ∧
    0x0005#16 = (start 0x6205#16).reg 0 + BitVec.ofInt 16 ((0x6205#16).extractLsb 5 0).toInt :=
  ⟨fun w => ⟨start_ready w, start_fetches w⟩, by decide, by decide, by decide, by decide, by decide, by decide,
    by decide⟩

/-- ST, STI and STR, each with the address its case names. -/
theorem witness_StoreWords :
    (∀ w : Word, (start w).ready ∧ (start w).memRead (start w).pc = w) ∧
    ([0x3205#16, 0xB205#16, 0x723F#16].all (fun w =>
      (w.extractLsb 11 9).toNat == (1 : Reg).val && (w.extractLsb 8 6).toNat == (0 : Reg).val)) = true ∧
    (0x3205#16).extractLsb 15 12 = 0b0011#4 ∧
    0x3006#16 = 0x3000#16 + 1 + BitVec.ofInt 16 ((0x3205#16).extractLsb 8 0).toInt ∧
    (0xB205#16).extractLsb 15 12 = 0b1011#4 ∧
    0x0000#16 =
      (start 0xB205#16).memRead (0x3000#16 + 1 + BitVec.ofInt 16 ((0xB205#16).extractLsb 8 0).toInt) ∧
    (0x723F#16).extractLsb 15 12 = 0b0111#4 ∧
    0xFFFF#16 = (start 0x723F#16).reg 0 + BitVec.ofInt 16 ((0x723F#16).extractLsb 5 0).toInt :=
  ⟨fun w => ⟨start_ready w, start_fetches w⟩, by decide, by decide, by decide, by decide, by decide, by decide,
    by decide⟩

/-- A store to the next instruction's address, which makes it HALT, and one elsewhere. -/
theorem witness_StoresAreSeenByTheNextFetch :
    (((start 0x3200#16).setReg 1 0xF025#16).ready ∧
      decode (((start 0x3200#16).setReg 1 0xF025#16).memRead 0x3000#16) = .ok (.st 1 0#9) ∧
      storesTo { (start 0x3200#16).setReg 1 0xF025#16 with pc := 0x3001#16 } (.st 1 0#9) =
        some (0x3001#16, 0xF025#16) ∧
      decode 0xF025#16 = .ok .halt) ∧
    ((start 0x31FE#16).ready ∧ decode ((start 0x31FE#16).memRead 0x3000#16) = .ok (.st 0 0x1FE#9) ∧
      storesTo { start 0x31FE#16 with pc := 0x3001#16 } (.st 0 0x1FE#9) = some (0x2FFF#16, 0#16)) :=
  ⟨⟨⟨rfl, rfl⟩, by decide, by decide, by decide⟩, start_ready _, by decide, by decide⟩

theorem witness_CanonicalMemoriesThatReadAlikeAreEqual :
    Memory.wf [(0, 1#16), (0xFFFF, 2#16)] = true ∧
    ∀ a : Word, Memory.read [(0, 1#16), (0xFFFF, 2#16)] a = Memory.read [(0, 1#16), (0xFFFF, 2#16)] a :=
  ⟨by decide, fun _ => rfl⟩

theorem witness_ControlTransfersComplete : (0b001#3 ≠ 0b000#3) ∧ (0b111#3 ≠ 0b000#3) := by decide

/-- Every clause: no condition, one that holds (Z at reset), and one that does not. -/
theorem witness_BranchWords :
    (∀ w : Word, (start w).ready ∧ (start w).memRead (start w).pc = w) ∧
    ([0x0000#16, 0x05FD#16, 0x0A03#16, 0x0FFF#16].all (fun w => w.extractLsb 15 12 == 0b0000#4)) = true ∧
    (0x0000#16).extractLsb 11 9 = 0b000#3 ∧ ((start 0x05FD#16).cc = .z ∧ (0x05FD#16).getLsbD 10 = true) ∧
    ((start 0x0A03#16).cc = .z ∧ (0x0A03#16).getLsbD 10 = false) :=
  ⟨fun w => ⟨start_ready w, start_fetches w⟩, by decide, by decide, by decide, by decide⟩

theorem witness_JmpAndRetWords :
    (∀ w : Word, (start w).ready ∧ (start w).memRead (start w).pc = w) ∧
    [0xC1C0#16, 0xC3C0#16, 0xC1C1#16].all (fun w =>
      w.extractLsb 15 12 == 0b1100#4 && (w.extractLsb 8 6).toNat == (7 : Reg).val) = true :=
  ⟨fun w => ⟨start_ready w, start_fetches w⟩, by decide⟩

theorem witness_JsrWords :
    (start 0x4C00#16).ready ∧ (start 0x4C00#16).memRead (start 0x4C00#16).pc = 0x4C00#16 ∧
    (0x4C00#16).extractLsb 15 12 = 0b0100#4 ∧ (0x4C00#16).extractLsb 11 11 = 1#1 :=
  ⟨start_ready _, start_fetches _, by decide, by decide⟩

/-- JSRR R7, where the two orders differ, and a word with a padding bit. -/
theorem witness_JsrrWords :
    (∀ w : Word, (start w).ready ∧ (start w).memRead (start w).pc = w) ∧
    [0x41C0#16, 0x43C0#16].all (fun w =>
      w.extractLsb 15 12 == 0b0100#4 && w.extractLsb 11 11 == 0#1 && (w.extractLsb 8 6).toNat == (7 : Reg).val) =
      true :=
  ⟨fun w => ⟨start_ready w, start_fetches w⟩, by decide⟩

theorem witness_JsrThenRetReturns :
    ((start 0x4801#16).memWrite 0x3002#16 0xC1C0#16).ready ∧
    decode (((start 0x4801#16).memWrite 0x3002#16 0xC1C0#16).memRead 0x3000#16) = .ok (.jsr 1#11) ∧
    ((start 0x4801#16).memWrite 0x3002#16 0xC1C0#16).memRead
      (0x3000#16 + 1 + BitVec.ofInt 16 (1#11).toInt) = 0xC1C0#16 :=
  ⟨⟨rfl, rfl⟩, by decide, by decide⟩

theorem witness_SelfBranchRunsForever :
    (start 0x0FFF#16).ready ∧ (start 0x0FFF#16).memRead (start 0x0FFF#16).pc = 0x0FFF#16 :=
  ⟨start_ready _, start_fetches _⟩

/-- A service step, and instruction steps of each kind the statement names, none of which fails. -/
theorem witness_ProgramCounterAfterEveryStep :
    (∃ t, step (waiting (.puts 0x4000#16) []) = .next t ∧ ¬ t.failed) ∧
    ∀ w ∈ [0x0E10#16, 0x0A03#16, 0xC080#16, 0xC1C0#16, 0x4810#16, 0x41C0#16, 0x1283#16],
      ∃ t, step (start w) = .next t ∧ ¬ t.failed := by
  refine ⟨⟨_, rfl, fun ⟨_, _, _, h⟩ => by cases h⟩, ?_⟩
  intro w hw
  simp only [List.mem_cons, List.not_mem_nil, or_false] at hw
  rcases hw with rfl | rfl | rfl | rfl | rfl | rfl | rfl <;>
    exact ⟨_, rfl, fun ⟨_, _, _, h⟩ => by cases h⟩

/-- The last vectors below and above the services, and the two ends of the services. -/
theorem witness_TrapDispatchesByVector :
    ((0x1F#8).toNat < 0x20 ∨ 0x25 < (0x1F#8).toNat) ∧ ((0x26#8).toNat < 0x20 ∨ 0x25 < (0x26#8).toNat) ∧
    ¬ ((0x20#8).toNat < 0x20 ∨ 0x25 < (0x20#8).toNat) ∧ ¬ ((0x25#8).toNat < 0x20 ∨ 0x25 < (0x25#8).toNat) := by
  decide

theorem witness_TrapWords :
    (∀ w : Word, (start w).ready ∧ (start w).memRead (start w).pc = w) ∧
    [0xF125#16, 0xF01F#16, 0xF020#16, 0xF021#16, 0xF022#16, 0xF023#16, 0xF024#16, 0xF025#16, 0xF026#16].all (fun w =>
      w.extractLsb 15 12 == 0b1111#4) = true :=
  ⟨fun w => ⟨start_ready w, start_fetches w⟩, by decide⟩

theorem witness_GetcReadsOneByteWithoutEcho :
    ((start 0xF020#16).ready ∧ (start 0xF020#16).memRead (start 0xF020#16).pc = 0xF020#16) ∧
    ((waiting .waitGetc [0x41#8]).status = .running ∧ (waiting .waitGetc [0x41#8]).svc = .waitGetc ∧
      (waiting .waitGetc [0x41#8]).input = 0x41#8 :: []) :=
  ⟨⟨start_ready _, start_fetches _⟩, rfl, rfl, rfl⟩

theorem witness_OutWritesTheLowByteOfR0 :
    (start 0xF021#16).ready ∧ (start 0xF021#16).memRead (start 0xF021#16).pc = 0xF021#16 :=
  ⟨start_ready _, start_fetches _⟩

/-- Both clauses: memory is zero at 0x4000 and not at 0x3000. -/
theorem witness_PutsMicroStep :
    (waiting (.puts 0x4000#16) []).status = .running ∧
    (waiting (.puts 0x4000#16) []).svc = .puts 0x4000#16 ∧
    ((waiting (.puts 0x4000#16) []).memRead 0x4000#16).extractLsb 7 0 = 0x00#8 ∧
    ((waiting (.puts 0x3000#16) []).memRead 0x3000#16).extractLsb 7 0 ≠ 0x00#8 :=
  ⟨rfl, rfl, by decide, by decide⟩

/-- All three clauses: a zero low byte, a zero high byte, and neither. -/
theorem witness_PutspMicroStep :
    (waiting (.putsp 0x4000#16) []).status = .running ∧
    (waiting (.putsp 0x4000#16) []).svc = .putsp 0x4000#16 ∧
    ((waiting (.putsp 0x4000#16) []).memRead 0x4000#16).extractLsb 7 0 = 0x00#8 ∧
    (((waiting (.putsp 0x4000#16) []).memWrite 0x4000#16 0x0021#16).memRead 0x4000#16).extractLsb 15 8 = 0x00#8 ∧
    ((waiting (.putsp 0x3000#16) []).memRead 0x3000#16).extractLsb 15 8 ≠ 0x00#8 :=
  ⟨rfl, rfl, by decide, by decide, by decide⟩

theorem witness_InPromptsReadsAndEchoes :
    ((start 0xF023#16).ready ∧ (start 0xF023#16).memRead (start 0xF023#16).pc = 0xF023#16) ∧
    ((waiting .waitIn [0x79#8, 0x0A#8]).status = .running ∧ (waiting .waitIn [0x79#8, 0x0A#8]).svc = .waitIn ∧
      (waiting .waitIn [0x79#8, 0x0A#8]).input = 0x79#8 :: [0x0A#8]) :=
  ⟨⟨start_ready _, start_fetches _⟩, rfl, rfl, rfl⟩

theorem witness_HaltEndsTheRunCleanly :
    (start 0xF025#16).ready ∧ (start 0xF025#16).memRead (start 0xF025#16).pc = 0xF025#16 :=
  ⟨start_ready _, start_fetches _⟩

/-- "ab" across the top of memory (95_test_vectors.md 2.4). -/
def putsState : State :=
  ((((start 0xF022#16).memWrite 0xFFFF#16 0x0061#16).memWrite 0x0000#16 0x4162#16).memWrite
    0x0001#16 0xFF00#16).setReg 0 0xFFFF#16

theorem witness_PutsPrintsAZeroTerminatedString :
    putsState.ready ∧ putsState.memRead putsState.pc = 0xF022#16 ∧
    (∀ i (h : i < [0x61#8, 0x62#8].length),
      (putsState.memRead (putsState.reg 0 + BitVec.ofNat 16 i)).extractLsb 7 0 = [0x61#8, 0x62#8][i] ∧
      [0x61#8, 0x62#8][i] ≠ 0x00#8) ∧
    (putsState.memRead (putsState.reg 0 + BitVec.ofNat 16 2)).extractLsb 7 0 = 0x00#8 :=
  ⟨⟨rfl, rfl⟩, by decide, by decide, by decide⟩

/-- "hi!" (95_test_vectors.md 2.4). -/
def putspState : State :=
  (((start 0xF024#16).memWrite 0x4000#16 0x6968#16).memWrite 0x4001#16 0x0021#16).setReg 0 0x4000#16

theorem witness_PutspPrintsAPackedString :
    putspState.ready ∧ putspState.memRead putspState.pc = 0xF024#16 ∧
    (∀ i (h : i < [0x68#8, 0x69#8, 0x21#8].length),
      packedByte putspState (putspState.reg 0) i = [0x68#8, 0x69#8, 0x21#8][i] ∧
      [0x68#8, 0x69#8, 0x21#8][i] ≠ 0x00#8) ∧
    packedByte putspState (putspState.reg 0) 3 = 0x00#8 :=
  ⟨⟨rfl, rfl⟩, by decide, by decide, by decide⟩

/-- Memory with 0x0001 at each of `n` addresses from `k` on. -/
def ones : Nat → Nat → Memory
  | _, 0 => []
  | k, n + 1 => (k, 0x0001#16) :: ones (k + 1) n

theorem ones_read (n k : Nat) (a : Word) (h : k ≤ a.toNat) (h' : a.toNat < k + n) :
    Memory.read (ones k n) a = 0x0001#16 := by
  induction n generalizing k with
  | zero => omega
  | succ n ih =>
    rw [ones, Memory.read]
    by_cases hk : k = a.toNat
    · rw [if_pos hk]
    · rw [if_neg hk]
      exact ih (k + 1) (by omega) (by omega)

theorem witness_PutsWithoutTerminatorNeverEnds :
    let s : State := { State.reset with svc := .puts 0#16, mem := ones 0 65536 }
    s.status = .running ∧ s.svc = .puts 0#16 ∧ ∀ b : Word, (s.memRead b).extractLsb 7 0 ≠ 0x00#8 := by
  refine ⟨rfl, rfl, fun b => ?_⟩
  have h := b.isLt
  have h1 : Memory.read (ones 0 65536) b = 0x0001#16 := ones_read 65536 0 b (by omega) (by omega)
  show (Memory.read (ones 0 65536) b).extractLsb 7 0 ≠ 0x00#8
  rw [h1]
  decide

theorem witness_ServiceMicroStepsFetchNothing :
    (waiting (.puts 0x3000#16) []).svc ≠ .idle ∧ (∃ t, step (waiting (.puts 0x3000#16) []) = .next t) ∧
    (∃ t, step (waiting .waitGetc [0x41#8]) = .next t) :=
  ⟨by decide, ⟨_, rfl⟩, ⟨_, rfl⟩⟩

/-- The unknown vectors next to the services and at the two ends (R168). -/
theorem witness_InvalidInstructionsTakeTheirError :
    ((0x00#8).toNat < 0x20 ∨ 0x25 < (0x00#8).toNat) ∧ ((0x1F#8).toNat < 0x20 ∨ 0x25 < (0x1F#8).toNat) ∧
    ((0x26#8).toNat < 0x20 ∨ 0x25 < (0x26#8).toNat) ∧ ((0xFF#8).toNat < 0x20 ∨ 0x25 < (0xFF#8).toNat) := by
  decide

theorem witness_RtiAndReservedWordsAlwaysErr :
    (∀ w : Word, (start w).ready ∧ (start w).memRead (start w).pc = w) ∧
    (0x8FFF#16).extractLsb 15 12 = 0b1000#4 ∧ (0xDFFF#16).extractLsb 15 12 = 0b1101#4 :=
  ⟨fun w => ⟨start_ready w, start_fetches w⟩, by decide, by decide⟩

/-- An instruction that changes its DR, JSR, which changes R7, and GETC's completion, which changes R0. -/
theorem witness_OnlyTheListedWritersChangeARegister :
    (∃ t, step (start 0x126F#16) = .next t ∧ t.reg 1 ≠ (start 0x126F#16).reg 1) ∧
    (∃ t, step (start 0x4800#16) = .next t ∧ t.reg 7 ≠ (start 0x4800#16).reg 7) ∧
    (∃ t, step (waiting .waitGetc [0x41#8]) = .next t ∧ t.reg 0 ≠ (waiting .waitGetc [0x41#8]).reg 0) := by
  refine ⟨⟨_, rfl, by decide⟩, ⟨_, rfl, by decide⟩, ⟨_, rfl, ?_⟩⟩
  show (State.finishGetc Config.readHighByte 0x41#8 _).reg 0 ≠ 0x0000#16
  cases Config.readHighByte <;> decide

theorem witness_ConditionCodeStateMachine :
    (∃ t, step (start 0x127F#16) = .next t) ∧ (start 0x127F#16).svc = .idle ∧
    decode ((start 0x127F#16).memRead (start 0x127F#16).pc) = .ok (.addImm 1 1 0x1F#5) ∧
    setsCc (.addImm 1 1 0x1F#5) = some 1 ∧
    (∃ t, step (start 0xE002#16) = .next t) ∧
    (∀ i, decode ((start 0xE002#16).memRead (start 0xE002#16).pc) = .ok i → setsCc i = none) := by
  refine ⟨⟨_, rfl⟩, rfl, by decide, rfl, ⟨_, rfl⟩, fun i h => ?_⟩
  rw [start_fetches, show decode 0xE002#16 = .ok (.lea 0 2#9) by decide] at h
  cases h
  rfl

theorem witness_OnlyStoresChangeMemory :
    ∃ t, step ((start 0x3200#16).setReg 1 0xF025#16) = .next t ∧
      t.memRead 0x3001#16 ≠ ((start 0x3200#16).setReg 1 0xF025#16).memRead 0x3001#16 :=
  ⟨_, rfl, by decide⟩

theorem witness_ConsoleOutputIsAppendOnlyAndUnread : ∃ t, step (start 0xF021#16) = .next t := ⟨_, rfl⟩

theorem witness_LaterInputDoesNotChangeAStep : ∃ t, step (waiting .waitIn [0x41#8]) = .next t := ⟨_, rfl⟩

/-- OUT, after which nothing is unflushed, and the end of a PUTS, before which something may be. -/
theorem witness_OutputIsFlushedBeforeWaitingFetchingOrEnding :
    (∃ t, step (start 0xF021#16) = .next t ∧ (start 0xF021#16).unflushed = 0 ∧ t.svc = .idle) ∧
    (∃ t, step ({ waiting (.puts 0x4000#16) [] with unflushed := 2 } : State) = .next t ∧ t.svc = .idle) :=
  ⟨⟨_, rfl, rfl, rfl⟩, ⟨_, rfl, rfl⟩⟩

theorem start_inv : (start 0x126F#16).Inv where
  memWf := by decide
  lineBit := rfl
  unflushedLe := Nat.le_refl 0
  flushed := fun _ _ => rfl
  endsIdle := fun _ => rfl
  errorTrue := fun _ _ _ h => by cases h

theorem witness_EveryStepKeepsTheInvariant :
    (start 0x126F#16).Inv ∧ ∃ t, step (start 0x126F#16) = .next t :=
  ⟨start_inv, ⟨_, rfl⟩⟩

/-- HALT with no byte supplied, and GETC, which takes the supplied byte and so runs past its wait. -/
theorem witness_RunsOfLoadedImagesKeepTheInvariant :
    (∃ s t, loadImage [0x30#8, 0x00#8, 0xF0#8, 0x25#8] = .ok s ∧ Reaches (s.supply []) t) ∧
    (∃ s t, loadImage [0x30#8, 0x00#8, 0xF0#8, 0x20#8] = .ok s ∧ Reaches (s.supply [0x41#8]) t ∧
      t.svc = .idle ∧ t.input = [] ∧ t.pc = 0x3001#16) :=
  ⟨⟨_, _, rfl, 1, rfl⟩, ⟨_, _, rfl, ⟨2, rfl⟩, rfl, rfl, rfl⟩⟩

/-- An image in the middle of memory and one that ends at its last word. -/
theorem witness_AcceptedImageLeavesTheStatedState :
    (∃ s, loadImage [0x30#8, 0x00#8, 0xF0#8, 0x25#8] = .ok s) ∧
    (∃ s, loadImage [0xFF#8, 0xFF#8, 0xF0#8, 0x25#8] = .ok s) :=
  ⟨⟨_, rfl⟩, ⟨_, rfl⟩⟩

/-- Both sides at the boundary: a payload that ends at 0xFFFF, one word more, no payload, and odd lengths. -/
theorem witness_ImagesAcceptedExactly :
    (∃ s, loadImage [0xFF#8, 0xFF#8, 0xF0#8, 0x25#8] = .ok s) ∧
    loadImage [0xFF#8, 0xFF#8, 0xF0#8, 0x25#8, 0x00#8, 0x00#8] = .error .payloadTooLong ∧
    loadImage [0x30#8, 0x00#8] = .error .noPayload ∧ loadImage [0x30#8, 0x00#8, 0xF0#8] = .error .oddLength :=
  ⟨⟨_, rfl⟩, by decide, by decide, by decide⟩

end Sys2Proof.Tests
end

