-- ==== Sys2Proof/Proofs/DecodeEncode.lean ====
section
/-! PROOF. Decoding and encoding are inverse to each other (R88). The decoder reads the fields of a word and the
encoder joins them, so both directions go format by format through the laws of `Sys2Proof/Laws/Decode.lean`. -/

namespace Sys2Proof

/-! The table's own names for some JMP and TRAP words (R90) -/

/-- Below R7 a JMP word has no name of its own. -/
theorem jmpInstr_of_canonical {base : Reg} (h : Instr.jmpIsCanonical base = true) :
    jmpInstr base = .jmp base :=
  if_neg (bne_iff_ne.mp h)

/-- Outside 0x20..0x25 a TRAP word has no name of its own. -/
theorem trapInstr_of_canonical {v : BitVec 8} (h : Instr.trapIsCanonical v = true) :
    trapInstr v = .trap v := by
  have hnone : Service.ofVector v = none :=
    (Service.ofVector_eq_none_iff v).mpr (by simpa [Instr.trapIsCanonical] using h)
  rw [trapInstr, hnone]

/-- RET is another name of a JMP word, never another word. -/
@[simp] theorem encode_jmpInstr (base : Reg) : encode (jmpInstr base) = wordJmp base := by
  unfold jmpInstr
  split
  · next h => rw [h, encode]
  · rfl

/-- A vector selects the service whose vector it is, and no other. -/
theorem Service.vector_of_ofVector {v : BitVec 8} {x : Service} (h : Service.ofVector v = some x) :
    x.vector = v := by
  revert h x v; decide

/-- A service's instruction is another name of a TRAP word, never another word. -/
@[simp] theorem encode_trapInstr (v : BitVec 8) : encode (trapInstr v) = wordTrap v := by
  cases hv : Service.ofVector v with
  | none => rw [trapInstr, hv, encode]
  | some x =>
    rw [trapInstr, hv, ← Service.vector_of_ofVector hv]
    cases x <;> rfl

/-! From instructions to words and back -/

@[simp] theorem decode_wordJmp (base : Reg) : decode (wordJmp base) = .ok (jmpInstr base) := by
  simp [decode_jmp, fieldSr1]

@[simp] theorem decode_wordTrap (v : BitVec 8) : decode (wordTrap v) = .ok (trapInstr v) := by
  simp [decode_trap]

/-- R88 for instructions: each operand is read back from the field its format puts it in. -/
theorem decode_encode {i : Instr} (h : i.wf = true) : decode (encode i) = .ok i := by
  cases i with
  | addReg dr sr1 sr2 => simp [encode, decode_add, fieldDr, fieldSr1, fieldSr2]
  | addImm dr sr1 imm5 => simp [encode, decode_add, fieldDr, fieldSr1]
  | andReg dr sr1 sr2 => simp [encode, decode_and, fieldDr, fieldSr1, fieldSr2]
  | andImm dr sr1 imm5 => simp [encode, decode_and, fieldDr, fieldSr1]
  | not dr sr => simp [encode, decode_not, fieldDr, fieldSr1]
  | lea dr off9 => simp [encode, decode_lea, fieldDr]
  | ld dr off9 => simp [encode, decode_ld, fieldDr]
  | ldi dr off9 => simp [encode, decode_ldi, fieldDr]
  | ldr dr base off6 => simp [encode, decode_ldr, fieldDr, fieldSr1]
  | st sr off9 => simp [encode, decode_st, fieldDr]
  | sti sr off9 => simp [encode, decode_sti, fieldDr]
  | str sr base off6 => simp [encode, decode_str, fieldDr, fieldSr1]
  | br nzp off9 => simp [encode, decode_br]
  | jmp base => rw [encode, decode_wordJmp, jmpInstr_of_canonical h]
  | ret => exact decode_wordJmp 7
  | jsr off11 => simp [encode, decode_jsr]
  | jsrr base => simp [encode, decode_jsr, fieldSr1]
  | trap v => rw [encode, decode_wordTrap, trapInstr_of_canonical h]
  | getc => exact decode_wordTrap Service.getc.vector
  | out => exact decode_wordTrap Service.out.vector
  | puts => exact decode_wordTrap Service.puts.vector
  | in_ => exact decode_wordTrap Service.inp.vector
  | putsp => exact decode_wordTrap Service.putsp.vector
  | halt => exact decode_wordTrap Service.halt.vector
  | rti low12 => simp [encode, decode_rti]
  | reserved low12 => simp [encode, decode_reserved]

/-! From words to instructions and back -/

/-- No two values of bits 15 to 12 select the same opcode (R66, R67). -/
theorem field_eq_bits_of_opcode {w : Word} {op : Opcode} (h : opcode w = op) : field w 15 12 = op.bits := by
  rw [← h, opcode, Opcode.bits_ofBits]

/-- R88 for words, the error rows of the table included: the fields the decoder reads and the bits it checks are
all the bits of the word. -/
theorem encode_of_decode {w : Word} {i : Instr} (h : decode w = .ok i) : encode i = w := by
  cases hop : opcode w <;> replace hop := field_eq_bits_of_opcode hop
  case add =>
    rw [decode_add w hop] at h
    split_ifs at h with hmode hpad <;> cases h
    · exact wordOpi_fields w .add hop hmode
    · exact wordOpr_fields w .add hop (field_opr_joined w hmode hpad)
  case and =>
    rw [decode_and w hop] at h
    split_ifs at h with hmode hpad <;> cases h
    · exact wordOpi_fields w .and hop hmode
    · exact wordOpr_fields w .and hop (field_opr_joined w hmode hpad)
  case not =>
    rw [decode_not w hop] at h
    split_ifs at h with hones; cases h
    exact wordNot_fields w hop hones
  case lea => rw [decode_lea w hop] at h; cases h; exact wordPc9_fields w .lea hop
  case ld => rw [decode_ld w hop] at h; cases h; exact wordPc9_fields w .ld hop
  case ldi => rw [decode_ldi w hop] at h; cases h; exact wordPc9_fields w .ldi hop
  case ldr => rw [decode_ldr w hop] at h; cases h; exact wordBase6_fields w .ldr hop
  case st => rw [decode_st w hop] at h; cases h; exact wordPc9_fields w .st hop
  case sti => rw [decode_sti w hop] at h; cases h; exact wordPc9_fields w .sti hop
  case str => rw [decode_str w hop] at h; cases h; exact wordBase6_fields w .str hop
  case br => rw [decode_br w hop] at h; cases h; exact wordBr_fields w hop
  case jmp =>
    rw [decode_jmp w hop] at h
    split_ifs at h with hpad; cases h
    rw [encode_jmpInstr, wordJmp_fields w hop hpad.1 hpad.2]
  case jsr =>
    rw [decode_jsr w hop] at h
    split_ifs at h with hmode hpad <;> cases h
    · exact wordJsr_fields w hop hmode
    · exact wordJsrr_fields w hop (field_jsrr_joined w hmode hpad.1) hpad.2
  case trap =>
    rw [decode_trap w hop] at h
    split_ifs at h with hpad; cases h
    rw [encode_trapInstr, wordTrap_fields w hop hpad]
  case rti => rw [decode_rti w hop] at h; cases h; exact wordAny_fields w .rti hop
  case reserved => rw [decode_reserved w hop] at h; cases h; exact wordAny_fields w .reserved hop

/-- What R87 accepts is what the decoder answers: the error rows are rejected, none is renamed. -/
theorem decode_of_classify {w : Word} {i : Instr} (h : classify w = .ok i) : decode w = .ok i := by
  unfold classify at h
  split at h
  · cases h
  · next hdecode =>
    split at h <;> cases h
    exact hdecode

/-- Settles O2: operand by operand from the instruction, and format by format from the word. -/
theorem decodeAndEncodeAgree : Obligations.DecodeAndEncodeAgree :=
  ⟨fun _ hwf => decode_encode hwf, fun _ _ haccepted => encode_of_decode (decode_of_classify haccepted)⟩

end Sys2Proof
end

