-- ==== Sys2Proof/Proofs/RunEnd.lean ====
section
/-! PROOF. How a step can end the run (R102). An instruction step ends it as the spec's classification of the fetched
word says; a micro-step of a service never ends it. -/

namespace Sys2Proof

/-! The classification of a decoded word (R87) -/

theorem classify_of_decode_error {w : Word} {k : ErrorKind} (h : decode w = .error k) : classify w = .error k := by
  simp [classify, h]

theorem classify_of_invalid {w : Word} {i : Instr} {k : ErrorKind} (h : decode w = .ok i) (hk : i.invalid = some k) :
    classify w = .error k := by
  simp [classify, h, hk]

theorem classify_of_valid {w : Word} {i : Instr} (h : decode w = .ok i) (hvalid : i.invalid = none) :
    classify w = .ok i := by
  simp [classify, h, hvalid]

/-- HALT has one word (R90, R150). -/
theorem classify_eq_halt_iff (w : Word) : classify w = .ok .halt ↔ w = 0xF025#16 := by
  constructor
  · exact fun h => (encode_of_decode (decode_of_classify h)).symm
  · rintro rfl; decide

/-- The decoder answers `trap` itself only where no service has the vector (R90). -/
theorem ofVector_eq_none_of_decode {w : Word} {v : BitVec 8} (h : decode w = .ok (.trap v)) :
    Service.ofVector v = none := by
  have hname : trapInstr v = .trap v := by
    rw [← encode_of_decode h, encode, decode_wordTrap] at h
    exact Except.ok.inj h
  cases hv : Service.ofVector v with
  | none => rfl
  | some x => cases x <;> simp [trapInstr, hv] at hname

namespace Machine

/-! The status an instruction leaves -/

/-- An instruction that is always an error raises it and does nothing else (R83, R84, R181). -/
theorem exec_of_invalid {i : Instr} {k : ErrorKind} {s t : State} (hk : i.invalid = some k)
    (h : exec i s = .next t) : t = s.raiseFor k i := by
  cases i with
  | br nzp off9 =>
    obtain ⟨rfl, rfl⟩ | ⟨hnzp, -⟩ := exec_br_cases h
    · cases hk; rfl
    · simp [Instr.invalid, hnzp] at hk
  | trap v =>
    obtain ⟨hv, rfl⟩ | ⟨x, hv, -⟩ := exec_trap_cases h
    · simp only [Instr.invalid, hv, if_true] at hk; cases hk; rfl
    · simp [Instr.invalid, hv] at hk
  | rti low12 => cases hk; cases h; rfl
  | reserved low12 => cases hk; cases h; rfl
  | _ => cases hk

/-- Of the decoded instructions that are no error only HALT writes the status. -/
theorem exec_status_of_valid {w : Word} {i : Instr} {s t : State} (hdecode : decode w = .ok i)
    (hvalid : i.invalid = none) (hi : i ≠ .halt) (h : exec i s = .next t) : t.status = s.status := by
  cases i with
  | br nzp off9 =>
    obtain ⟨rfl, -⟩ | ⟨-, rfl⟩ := exec_br_cases h
    · cases hvalid
    · rfl
  | trap v => simp [Instr.invalid, ofVector_eq_none_of_decode hdecode] at hvalid
  | in_ =>
    cases h
    obtain ⟨-, -, -, -, hstatus, -⟩ := s.startIn_frame Config.inPrompt
    exact hstatus
  | halt => exact absurd rfl hi
  | rti low12 => cases hvalid
  | reserved low12 => cases hvalid
  | _ => cases h; rfl

/-! The status a step leaves -/

/-- The status an instruction step leaves when it fetches the word `w` at the address `a` (R102). -/
def statusAfterFetch (w a : Word) : Status :=
  match classify w with
  | .error k => .error k w a
  | .ok i => if i = .halt then .halted else .running

theorem statusAfterFetch_eq_halted_iff (w a : Word) : statusAfterFetch w a = .halted ↔ w = 0xF025#16 := by
  rw [← classify_eq_halt_iff]
  cases h : classify w <;> simp [statusAfterFetch, h]

theorem statusAfterFetch_eq_error_iff (w a : Word) (k : ErrorKind) (w' a' : Word) :
    statusAfterFetch w a = .error k w' a' ↔ w' = w ∧ a' = a ∧ classify w = .error k := by
  cases h : classify w with
  | error k' =>
    simp only [statusAfterFetch, h, Status.error.injEq, Except.error.injEq]
    constructor <;> rintro ⟨rfl, rfl, rfl⟩ <;> exact ⟨rfl, rfl, rfl⟩
  | ok i => simp [statusAfterFetch, h]; split <;> simp

/-- The decoded instruction leaves the status its word is classified for: `pc` is past the word (R96), and the
instruction's own error records the word it was decoded from. -/
theorem exec_status {s t : State} {i : Instr} (hrunning : s.status = .running)
    (hdecode : decode (s.memRead s.pc) = .ok i) (h : exec i s.advance = .next t) :
    t.status = statusAfterFetch (s.memRead s.pc) s.pc := by
  cases hinvalid : i.invalid with
  | some k =>
    rw [exec_of_invalid hinvalid h, statusAfterFetch, classify_of_invalid hdecode hinvalid]
    simp [encode_of_decode hdecode]
  | none =>
    rw [statusAfterFetch, classify_of_valid hdecode hinvalid]
    by_cases hi : i = .halt
    · subst hi; cases h; rfl
    · simp [hi, exec_status_of_valid hdecode hinvalid hi h, hrunning]

theorem microPuts_status {a : Word} {s t : State} (h : microPuts a s = .next t) : t.status = s.status := by
  obtain ⟨-, rfl⟩ | ⟨-, rfl⟩ := microPuts_cases h <;> rfl

theorem microPutsp_status {a : Word} {s t : State} (h : microPutsp a s = .next t) : t.status = s.status := by
  obtain ⟨-, rfl⟩ | ⟨-, -, rfl⟩ | ⟨-, -, rfl⟩ := microPutsp_cases h <;> rfl

theorem not_ready_of_svc_ne_idle {s : State} (h : s.svc ≠ .idle) : ¬ s.ready :=
  fun hready => h hready.2

/-- What a step does to the status: between instructions the fetched word decides, and a service in progress keeps the
core running (R102, R154). -/
theorem step_status {s t : State} (h : step s = .next t) :
    (s.ready ∧ t.status = statusAfterFetch (s.memRead s.pc) s.pc) ∨ (¬ s.ready ∧ t.status = .running) := by
  obtain ⟨hrunning, hstep⟩ := step_inv h
  obtain ⟨hidle, ⟨k, hdecode, rfl⟩ | ⟨i, hdecode, hexec⟩⟩ | ⟨hsvc, c, rest, -, rfl⟩ | ⟨hsvc, c, rest, -, rfl⟩ |
    ⟨a, hsvc, hmicro⟩ | ⟨a, hsvc, hmicro⟩ := hstep
  · refine .inl ⟨⟨hrunning, hidle⟩, ?_⟩
    rw [statusAfterFetch, classify_of_decode_error hdecode, State.raise_status]
  · exact .inl ⟨⟨hrunning, hidle⟩, exec_status hrunning hdecode hexec⟩
  all_goals refine .inr ⟨not_ready_of_svc_ne_idle (by simp [hsvc]), ?_⟩
  · exact hrunning
  · obtain ⟨-, -, -, hstatus, -⟩ := State.finishIn_frame { s with input := rest } Config.readHighByte
      Config.inEchoSuffix c
    exact hstatus.trans hrunning
  · exact (microPuts_status hmicro).trans hrunning
  · exact (microPutsp_status hmicro).trans hrunning

/-- Settles O9: the fetched word's classification decides the status, and a micro-step leaves Running. -/
theorem runsEndOnlyByHaltOrInstructionError : Obligations.RunsEndOnlyByHaltOrInstructionError := by
  intro s t h
  obtain ⟨hready, hstatus⟩ | ⟨hnot, hstatus⟩ := step_status h
  · rw [hstatus]
    constructor
    · simp [hready, statusAfterFetch_eq_halted_iff]
    · simp [hready, statusAfterFetch_eq_error_iff]
  · simp [hnot, hstatus]

end Machine

end Sys2Proof
end

