-- ==== Sys2Proof/Proofs/StepCases.lean ====
section
/-! PROOF. Everything a step can do, sorted by what it writes. An instruction has one of six effects (R98), and a step
is a rejected word, an instruction's effect or one of four kinds of micro-step (R95, R106, R154). The rules of the
whole machine are read off these cases, one line for each. -/

namespace Sys2Proof.Machine

/-! Instructions -/

/-- What an instruction can do, with what the tables `setsCc`, `writesReg`, `storesTo` and `Instr.invalid` say of an
instruction that does it. -/
inductive Effect (i : Instr) (s : State) : State → Prop
  /-- DR and its flag (R101). -/
  | result {dr : Reg} {v : Word} (hcc : setsCc i = some dr) (hreg : writesReg i = some dr) :
      Effect i s (s.writeResult dr v)
  /-- A register without its flag, and perhaps a jump: LEA, JSR and JSRR (R125, R142, R143). -/
  | link {r : Reg} {v p : Word} (hcc : setsCc i = none) (hreg : writesReg i = some r) :
      Effect i s ((s.setReg r v).setPc p)
  /-- A word of memory (R129 to R131). -/
  | store {ea v : Word} (hcc : setsCc i = none) (hstores : storesTo s i = some (ea, v)) :
      Effect i s (s.memWrite ea v)
  /-- `pc` alone (R140, R141). -/
  | jump {p : Word} (hcc : setsCc i = none) : Effect i s (s.setPc p)
  /-- The start of a service (R150). -/
  | service {x : Service} (hcc : setsCc i = none) : Effect i s (s.startService x)
  /-- The instruction's own error (R83, R84). -/
  | error {k : ErrorKind} (hcc : setsCc i = none) (hinvalid : i.invalid = some k) :
      Effect i s (s.raiseFor k i)

/-- The meanings have no other effects. -/
theorem effect_of_exec {i : Instr} {s t : State} (h : exec i s = .next t) : Effect i s t := by
  cases i with
  | br nzp off9 =>
    obtain ⟨hnzp, rfl⟩ | ⟨-, rfl⟩ := exec_br_cases h
    · exact .error rfl (if_pos hnzp)
    · exact .jump rfl
  | trap v =>
    obtain ⟨hv, rfl⟩ | ⟨x, -, rfl⟩ := exec_trap_cases h
    · exact .error rfl (if_pos hv)
    · exact .service rfl
  | rti low12 => cases h; exact .error rfl rfl
  | reserved low12 => cases h; exact .error rfl rfl
  | lea dr off9 => cases h; exact .link (p := s.pc) rfl rfl
  | jsr off11 => cases h; exact .link rfl rfl
  | jsrr base => cases h; exact .link rfl rfl
  | st sr off9 => cases h; exact .store rfl rfl
  | sti sr off9 => cases h; exact .store rfl rfl
  | str sr base off6 => cases h; exact .store rfl rfl
  | jmp base => cases h; exact .jump rfl
  | ret => cases h; exact .jump rfl
  | getc => cases h; exact .service (x := .getc) rfl
  | out => cases h; exact .service (x := .out) rfl
  | puts => cases h; exact .service (x := .puts) rfl
  | in_ => cases h; exact .service (x := .inp) rfl
  | putsp => cases h; exact .service (x := .putsp) rfl
  | halt => cases h; exact .service (x := .halt) rfl
  | _ => cases h; exact .result rfl rfl

/-! Steps -/

/-- PUTS or PUTSP is in progress: the two services whose micro-steps leave bytes unflushed (R161). -/
def Svc.prints : Svc → Bool
  | .puts _ | .putsp _ => true
  | .idle | .waitGetc | .waitIn => false

theorem Svc.prints_eq_false_iff (v : Svc) :
    v.prints = false ↔ (∀ a, v ≠ .puts a) ∧ (∀ a, v ≠ .putsp a) := by
  cases v <;> simp [Svc.prints]

/-- What a step can do from `s`. -/
inductive StepCase (s : State) : State → Prop
  /-- The fetched word is rejected for its padding (R82). -/
  | reject {k : ErrorKind} (hsvc : s.svc = .idle) (hdecode : decode (s.memRead s.pc) = .error k) :
      StepCase s (s.advance.raise k (s.memRead s.pc) s.pc)
  /-- The fetched word is executed (R106). -/
  | instr {i : Instr} {t : State} (hsvc : s.svc = .idle) (hdecode : decode (s.memRead s.pc) = .ok i)
      (heffect : Effect i s.advance t) : StepCase s t
  /-- GETC takes its byte (R156). -/
  | getc {c : Byte} {rest : List Byte} (hsvc : s.svc = .waitGetc) (hinput : s.input = c :: rest) :
      StepCase s (({ s with input := rest } : State).finishGetc Config.readHighByte c)
  /-- IN takes its byte (R164). -/
  | inp {c : Byte} {rest : List Byte} (hsvc : s.svc = .waitIn) (hinput : s.input = c :: rest) :
      StepCase s (({ s with input := rest } : State).finishIn Config.readHighByte Config.inEchoSuffix c)
  /-- PUTS or PUTSP goes on after some bytes (R159, R166). -/
  | print {bs : List Byte} {v : Svc} (hsvc : s.svc.prints = true) (hnext : v.prints = true) :
      StepCase s ((s.emitAll bs).setSvc v)
  /-- PUTS or PUTSP ends after some bytes, or none (R159, R166). -/
  | printEnd {bs : List Byte} (hsvc : s.svc.prints = true) :
      StepCase s ((s.emitAll bs).flush.setSvc .idle)

/-- A step can do nothing else. -/
theorem stepCase_of_step {s t : State} (h : step s = .next t) : StepCase s t := by
  obtain ⟨-, ⟨hsvc, ⟨k, hdecode, rfl⟩ | ⟨i, hdecode, hexec⟩⟩ | ⟨hsvc, c, rest, hinput, rfl⟩ |
    ⟨hsvc, c, rest, hinput, rfl⟩ | ⟨a, hsvc, hmicro⟩ | ⟨a, hsvc, hmicro⟩⟩ := step_inv h
  · exact .reject hsvc hdecode
  · exact .instr hsvc hdecode (effect_of_exec hexec)
  · exact .getc hsvc hinput
  · exact .inp hsvc hinput
  · have hprints : s.svc.prints = true := by rw [hsvc]; rfl
    obtain ⟨-, rfl⟩ | ⟨-, rfl⟩ := microPuts_cases hmicro
    · exact .printEnd (bs := []) hprints
    · exact .print (bs := [lo (s.memRead a)]) hprints rfl
  · have hprints : s.svc.prints = true := by rw [hsvc]; rfl
    obtain ⟨-, rfl⟩ | ⟨-, -, rfl⟩ | ⟨-, -, rfl⟩ := microPutsp_cases hmicro
    · exact .printEnd (bs := []) hprints
    · exact .printEnd (bs := [lo (s.memRead a)]) hprints
    · exact .print (bs := [lo (s.memRead a), hi (s.memRead a)]) hprints rfl

/-! The console, where several steps write it -/

/-- `t` has put out `bs` after what `s` had put out: the line-start bit follows the last of them, and either everything
is flushed or they are counted (R151, R152). -/
def Emits (bs : List Byte) (s t : State) : Prop :=
  t.out = s.out ++ bs ∧ t.lastNL = (bs.getLast?.map (fun b => decide (b = 0x0A#8))).getD s.lastNL ∧
    (t.unflushed = 0 ∨ t.unflushed = s.unflushed + bs.length)

theorem emits_emitAll (s : State) (bs : List Byte) : Emits bs s (s.emitAll bs) :=
  ⟨s.emitAll_out bs, s.emitAll_lastNL bs, .inr (s.emitAll_unflushed bs)⟩

theorem Emits.flush {bs : List Byte} {s t : State} (h : Emits bs s t) : Emits bs s t.flush :=
  ⟨h.1, h.2.1, .inl rfl⟩

theorem emits_refl (s : State) : Emits [] s s :=
  emits_emitAll s []

/-- IN's start is one string put out and flushed (R163). -/
theorem State.startIn_eq (s : State) (prompt : List Byte) :
    s.startIn prompt =
      ((s.emitAll ((if s.lastNL then [] else [0x0A#8]) ++ prompt)).flush).setSvc .waitIn := by
  cases h : s.lastNL <;> simp only [State.startIn, h] <;> rfl

theorem emits_startIn (s : State) (prompt : List Byte) :
    Emits ((if s.lastNL then [] else [0x0A#8]) ++ prompt) s (s.startIn prompt) := by
  rw [State.startIn_eq]
  exact (emits_emitAll s _).flush

/-- IN's completion is one string put out and flushed (R164). -/
theorem emits_finishIn (s : State) (mode : ReadHighByte) (suffix : List Byte) (c : Byte) :
    Emits (c :: suffix) s (s.finishIn mode suffix c) :=
  (emits_emitAll s (c :: suffix)).flush

theorem exists_emits_startService (s : State) (x : Service) : ∃ bs, Emits bs s (s.startService x) := by
  cases x with
  | getc => exact ⟨[], emits_refl s⟩
  | out => exact ⟨[lo (s.reg 0)], (emits_emitAll s _).flush⟩
  | puts => exact ⟨[], emits_refl s⟩
  | inp => exact ⟨_, emits_startIn s Config.inPrompt⟩
  | putsp => exact ⟨[], emits_refl s⟩
  | halt => exact ⟨[], (emits_refl s).flush⟩

theorem Effect.exists_emits {i : Instr} {s t : State} (h : Effect i s t) : ∃ bs, Emits bs s t := by
  cases h with
  | @service x => exact exists_emits_startService s x
  | _ => exact ⟨[], emits_refl s⟩

/-- A step only appends to the output (R151). -/
theorem StepCase.exists_emits {s t : State} (h : StepCase s t) : ∃ bs, Emits bs s t := by
  cases h with
  | reject => exact ⟨[], emits_refl s⟩
  | instr hsvc hdecode heffect => exact heffect.exists_emits
  | getc => exact ⟨[], emits_refl s⟩
  | @inp c rest => exact ⟨_, emits_finishIn { s with input := rest } _ _ c⟩
  | @print bs => exact ⟨bs, emits_emitAll s bs⟩
  | @printEnd bs => exact ⟨bs, (emits_emitAll s bs).flush⟩

/-! Flushing (R161) -/

/-- Only PUTS and PUTSP start with something left to put out. -/
theorem startService_unflushed (s : State) (x : Service) :
    (s.startService x).unflushed = 0 ∨ (s.startService x).unflushed = s.unflushed ∨
      (s.startService x).svc.prints = true := by
  cases x with
  | getc => exact .inr (.inl rfl)
  | out => exact .inl rfl
  | puts => exact .inr (.inr rfl)
  | inp =>
    obtain ⟨-, -, -, -, -, -, hunflushed, -⟩ := s.startIn_frame Config.inPrompt
    exact .inl hunflushed
  | putsp => exact .inr (.inr rfl)
  | halt => exact .inl rfl

/-- A step flushes, or leaves the count alone, or leaves PUTS or PUTSP in progress. -/
theorem StepCase.unflushed {s t : State} (h : StepCase s t) :
    t.unflushed = 0 ∨ (t.unflushed = s.unflushed ∧ s.svc.prints = false) ∨ t.svc.prints = true := by
  cases h with
  | reject hsvc => exact .inr (.inl ⟨rfl, by rw [hsvc]; rfl⟩)
  | instr hsvc hdecode heffect =>
    have hprints : s.svc.prints = false := by rw [hsvc]; rfl
    cases heffect with
    | @service x => exact (startService_unflushed s.advance x).imp_right (.imp_left (⟨·, hprints⟩))
    | _ => exact .inr (.inl ⟨rfl, hprints⟩)
  | getc hsvc => exact .inr (.inl ⟨rfl, by rw [hsvc]; rfl⟩)
  | inp => exact .inl rfl
  | print hsvc hnext => exact .inr (.inr hnext)
  | printEnd => exact .inl rfl

/-- Settles O51: a step that only leaves the count alone starts where nothing was unflushed. -/
theorem outputIsFlushedBeforeWaitingFetchingOrEnding :
    Obligations.OutputIsFlushedBeforeWaitingFetchingOrEnding := by
  intro s t h hbefore hputs hputsp
  obtain hzero | ⟨hsame, hidle⟩ | hprints := (stepCase_of_step h).unflushed
  · exact hzero
  · obtain ⟨hsputs, hsputsp⟩ := (Svc.prints_eq_false_iff s.svc).mp hidle
    rw [hsame, hbefore hsputs hsputsp]
  · rw [(Svc.prints_eq_false_iff t.svc).mpr ⟨hputs, hputsp⟩] at hprints
    cases hprints

end Sys2Proof.Machine
end

