-- ==== Sys2Proof/Proofs/Invariant.lean ====
section
/-! PROOF. The invariant of the machine holds at reset and is kept by every step, so it holds wherever a run of an
accepted image comes. Each of its clauses is kept for a reason of its own. -/

namespace Sys2Proof.Machine

/-! The clauses, one by one -/

theorem startService_mem (s : State) (x : Service) : (s.startService x).mem = s.mem :=
  (startService_frame s x).1

/-- A step keeps memory or writes one word of it (R47). -/
theorem StepCase.memWf {s t : State} (h : StepCase s t) (hwf : Memory.wf s.mem = true) :
    Memory.wf t.mem = true := by
  cases h with
  | instr hsvc hdecode heffect =>
    cases heffect with
    | @store ea v => exact Memory.wf_write ea v hwf
    | @service x => rw [startService_mem]; exact hwf
    | _ => exact hwf
  | inp => rw [(State.finishIn_frame _ _ _ _).1]; exact hwf
  | print => rw [State.setSvc_mem, State.emitAll_mem]; exact hwf
  | printEnd => rw [State.setSvc_mem, State.flush_mem, State.emitAll_mem]; exact hwf
  | _ => exact hwf

/-- The last of the bytes appended says whether a line starts (R31). -/
theorem lineStart_append (out bs : List Byte) :
    lineStart (out ++ bs) = (bs.getLast?.map (fun b => decide (b = 0x0A#8))).getD (lineStart out) := by
  unfold lineStart
  rw [List.getLast?_append]
  cases bs.getLast? <;> rfl

/-- The line-start bit says what the output says, after as before (R152). -/
theorem Emits.lineBit {bs : List Byte} {s t : State} (h : Emits bs s t) (hbit : s.lastNL = lineStart s.out) :
    t.lastNL = lineStart t.out := by
  obtain ⟨hout, hlastNL, -⟩ := h
  rw [hlastNL, hout, lineStart_append, hbit]

theorem Emits.unflushedLe {bs : List Byte} {s t : State} (h : Emits bs s t)
    (hle : s.unflushed ≤ s.out.length) : t.unflushed ≤ t.out.length := by
  obtain ⟨hout, -, hunflushed⟩ := h
  rw [hout, List.length_append]
  omega

/-- Of the services that start, only HALT ends the run, and it moves no sequencer (R167). -/
theorem startService_endsIdle (s : State) (x : Service) :
    (s.startService x).status = s.status ∨ (s.startService x).svc = s.svc := by
  cases x with
  | inp =>
    obtain ⟨-, -, -, -, hstatus, -⟩ := s.startIn_frame Config.inPrompt
    exact .inl hstatus
  | halt => exact .inr rfl
  | _ => exact .inl rfl

/-- A step leaves the core running or no service in progress (R105). -/
theorem StepCase.endsIdle {s t : State} (h : StepCase s t) (hrunning : s.status = .running) :
    t.status = .running ∨ t.svc = .idle := by
  cases h with
  | reject hsvc => exact .inr hsvc
  | instr hsvc hdecode heffect =>
    cases heffect with
    | @service x => exact (startService_endsIdle s.advance x).imp (·.trans hrunning) (·.trans hsvc)
    | _ => exact .inr hsvc
  | print => exact .inl (by simpa using hrunning)
  | _ => exact .inr rfl

/-! The invariant -/

/-- Settles O52, clause by clause. -/
theorem everyStepKeepsTheInvariant : Obligations.EveryStepKeepsTheInvariant := by
  intro s t hinv h
  have hcase := stepCase_of_step h
  obtain ⟨bs, hemits⟩ := hcase.exists_emits
  exact
    { memWf := hcase.memWf hinv.memWf
      lineBit := hemits.lineBit hinv.lineBit
      unflushedLe := hemits.unflushedLe hinv.unflushedLe
      flushed := outputIsFlushedBeforeWaitingFetchingOrEnding s t h hinv.flushed
      endsIdle := (hcase.endsIdle (step_running h)).resolve_left
      errorTrue := fun k w a herror => by
        obtain ⟨-, rfl, -, hclassify⟩ := ((runsEndOnlyByHaltOrInstructionError s t h).2 k w a).mp herror
        exact hclassify }

/-- Settles O53: nothing has been put out, and memory is empty. -/
theorem resetSatisfiesTheInvariant : Obligations.ResetSatisfiesTheInvariant where
  memWf := reset_mem_wf
  lineBit := rfl
  unflushedLe := le_rfl
  flushed := fun _ _ => rfl
  endsIdle := fun _ => rfl
  errorTrue := fun _ _ _ h => by cases h

/-- Input the host supplies is no concern of the invariant (R153). -/
theorem State.Inv.supply {s : State} (h : s.Inv) (bs : List Byte) : (s.supply bs).Inv :=
  ⟨h.memWf, h.lineBit, h.unflushedLe, h.flushed, h.endsIdle, h.errorTrue⟩

/-- A run that answers a state after `n + 1` steps has taken a first step. -/
theorem exists_step_of_run_succ {n : Nat} {s u : State} (h : Host.Core.run Sys2Proof.core (n + 1) s = .next u) :
    ∃ t, step s = .next t ∧ Host.Core.run Sys2Proof.core n t = .next u := by
  simp only [Host.Core.run] at h
  split at h
  · next t hstep => exact ⟨t, hstep, h⟩
  · cases h
  · cases h

/-- What every step keeps holds wherever a run comes. -/
theorem Reaches.induction {P : State → Prop} (hstep : ∀ s t, P s → step s = .next t → P t) {s t : State}
    (hs : P s) (h : Reaches s t) : P t := by
  obtain ⟨n, hrun⟩ := h
  induction n generalizing s with
  | zero => cases hrun; exact hs
  | succ n ih =>
    obtain ⟨u, hu, hrest⟩ := exists_step_of_run_succ hrun
    exact ih (hstep s u hs hu) hrest

/-- What the loader accepts is the reset state with `pc` and memory set (R205 to R207). -/
theorem loadImage_eq_ok {img : List Byte} {s : State} (h : loadImage img = .ok s) :
    ∃ hb lb rest w ws, img = hb :: lb :: rest ∧ wordsOfBytes rest = some (w :: ws) ∧
      (hb ++ lb : Word).toNat + (ws.length + 1) ≤ 65536 ∧
      s = { State.reset with pc := hb ++ lb, mem := Memory.writeBlock [] (hb ++ lb) (w :: ws) } := by
  unfold loadImage at h
  split at h
  · cases h
  · cases h
  · next hb lb rest =>
    split at h
    · cases h
    · cases h
    · next w ws hwords =>
      dsimp only at h
      split at h
      · next hfits => cases h; exact ⟨hb, lb, rest, w, ws, rfl, hwords, hfits, rfl⟩
      · cases h

/-- Loading only fills memory, word by word (R205, R207). -/
theorem inv_of_loadImage {img : List Byte} {s : State} (h : loadImage img = .ok s) : s.Inv := by
  obtain ⟨hb, lb, rest, w, ws, -, -, -, rfl⟩ := loadImage_eq_ok h
  exact { resetSatisfiesTheInvariant with memWf := Memory.wf_writeBlock _ _ reset_mem_wf }

/-- Settles O54: the start has the invariant, supplied input keeps it, and so does every step. -/
theorem runsOfLoadedImagesKeepTheInvariant : Obligations.RunsOfLoadedImagesKeepTheInvariant := by
  intro img bs s t hload hreaches
  exact hreaches.induction everyStepKeepsTheInvariant ((inv_of_loadImage hload).supply bs)

end Sys2Proof.Machine
end

