-- ==== Sys2Proof/Proofs/StepEquations.lean ====
section
/-! PROOF. Which step a state has: one equation for each thing a step can do (R95, R106, R154), and that no other state
has a step (R104, R153). -/

namespace Sys2Proof.Machine

/-! The meanings that branch -/

theorem exec_br_zero (off9 : BitVec 9) (s : State) :
    exec (.br 0b000#3 off9) s = .next (s.raiseFor .zeroBranchCondition (.br 0b000#3 off9)) :=
  rfl

theorem exec_br {nzp : BitVec 3} (h : nzp ≠ 0b000#3) (off9 : BitVec 9) (s : State) :
    exec (.br nzp off9) s = .next (s.setPc (if branchTaken s.cc nzp then s.pcRel off9 else s.pc)) := by
  change execBr nzp off9 s = _
  rw [execBr, if_neg h]
  split <;> rfl

theorem exec_trap_service {v : BitVec 8} {x : Service} (h : Service.ofVector v = some x) (s : State) :
    exec (.trap v) s = .next (s.startService x) := by
  change execTrap v s = _
  rw [execTrap, h]

theorem exec_trap_unknown {v : BitVec 8} (h : Service.ofVector v = none) (s : State) :
    exec (.trap v) s = .next (s.raiseFor .unknownTrapVector (.trap v)) := by
  change execTrap v s = _
  rw [execTrap, h]

/-- No instruction is without a meaning in any state (R98). -/
theorem exists_exec (i : Instr) (s : State) : ∃ t, exec i s = .next t := by
  cases i with
  | br nzp off9 =>
    by_cases h : nzp = 0b000#3
    · rw [h]; exact ⟨_, exec_br_zero off9 s⟩
    · exact ⟨_, exec_br h off9 s⟩
  | trap v =>
    cases h : Service.ofVector v with
    | none => exact ⟨_, exec_trap_unknown h s⟩
    | some x => exact ⟨_, exec_trap_service h s⟩
  | _ => exact ⟨_, rfl⟩

/-! Instruction steps -/

theorem step_of_decode {s : State} {i : Instr} (hready : s.ready) (h : decode (s.memRead s.pc) = .ok i) :
    step s = exec i s.advance := by
  rw [step_of_ready hready]
  simp only [instrStep, State.fetchWord, h]

theorem step_of_decode_error {s : State} {k : ErrorKind} (hready : s.ready)
    (h : decode (s.memRead s.pc) = .error k) :
    step s = .next (s.advance.raise k (s.memRead s.pc) s.pc) := by
  rw [step_of_ready hready]
  simp only [instrStep, State.fetchWord, h]

/-- Settles O5: `instrStep` fetches at `pc`, advances it and decodes (R106). -/
theorem stepRunsTheDecodedInstruction : Obligations.StepRunsTheDecodedInstruction :=
  fun _ _ => step_of_decode

/-- R87 rejects a word for its padding or as a row of the table that is always an error. -/
theorem decode_of_classify_error {w : Word} {k : ErrorKind} (h : classify w = .error k) :
    decode w = .error k ∨ ∃ i, decode w = .ok i ∧ i.invalid = some k := by
  unfold classify at h
  split at h
  · next hdecode => cases h; exact .inl hdecode
  · next i hdecode =>
    split at h
    · next hinvalid => cases h; exact .inr ⟨i, hdecode, hinvalid⟩
    · cases h

/-- A rejected word raises its error, whether the decoder or the instruction's meaning finds it (R99). -/
theorem exists_step_of_classify_error {s : State} {k : ErrorKind} (hready : s.ready)
    (h : classify (s.memRead s.pc) = .error k) :
    ∃ t, step s = .next t ∧ ErrorTaken k (s.memRead s.pc) s.pc s t := by
  obtain hdecode | ⟨i, hdecode, hinvalid⟩ := decode_of_classify_error h
  · exact ⟨_, step_of_decode_error hready hdecode, errorTaken_raise s.advance k _ _⟩
  · obtain ⟨t, hexec⟩ := exists_exec i s.advance
    refine ⟨t, (step_of_decode hready hdecode).trans hexec, ?_⟩
    have herror := errorTaken_raise s.advance k (encode i) (s.pc + 1 - 1)
    rw [encode_of_decode hdecode, BitVec.add_sub_cancel] at herror
    rw [exec_of_invalid hinvalid hexec, State.raiseFor, encode_of_decode hdecode, State.advance_pc,
      BitVec.add_sub_cancel]
    exact herror

/-- Settles O6, where the decoder rejects the word and where its meaning does. -/
theorem rejectedWordsRaiseAndExecuteNothing : Obligations.RejectedWordsRaiseAndExecuteNothing :=
  fun _ _ => exists_step_of_classify_error

/-! Micro-steps -/

section
variable {s : State} (hrunning : s.status = .running)
include hrunning

theorem step_waitGetc {c : Byte} {rest : List Byte} (hsvc : s.svc = .waitGetc) (hinput : s.input = c :: rest) :
    step s = .next (({ s with input := rest } : State).finishGetc Config.readHighByte c) := by
  simp only [step_of_running hrunning, hsvc, microGetc, State.awaitByte, hinput]

theorem step_waitIn {c : Byte} {rest : List Byte} (hsvc : s.svc = .waitIn) (hinput : s.input = c :: rest) :
    step s =
      .next (({ s with input := rest } : State).finishIn Config.readHighByte Config.inEchoSuffix c) := by
  simp only [step_of_running hrunning, hsvc, microIn, State.awaitByte, hinput]

theorem step_puts_end {a : Word} (hsvc : s.svc = .puts a) (hlo : lo (s.memRead a) = 0x00#8) :
    step s = .next (s.flush.setSvc .idle) := by
  rw [step_of_running hrunning, hsvc]
  exact if_pos hlo

theorem step_puts_next {a : Word} (hsvc : s.svc = .puts a) (hlo : lo (s.memRead a) ≠ 0x00#8) :
    step s = .next ((s.emit (lo (s.memRead a))).setSvc (.puts (a + 1))) := by
  rw [step_of_running hrunning, hsvc]
  exact if_neg hlo

theorem step_putsp_end {a : Word} (hsvc : s.svc = .putsp a) (hlo : lo (s.memRead a) = 0x00#8) :
    step s = .next (s.flush.setSvc .idle) := by
  rw [step_of_running hrunning, hsvc]
  exact if_pos hlo

theorem step_putsp_half {a : Word} (hsvc : s.svc = .putsp a) (hlo : lo (s.memRead a) ≠ 0x00#8)
    (hhi : hi (s.memRead a) = 0x00#8) : step s = .next ((s.emit (lo (s.memRead a))).flush.setSvc .idle) := by
  rw [step_of_running hrunning, hsvc]
  exact (if_neg hlo).trans (if_pos hhi)

theorem step_putsp_next {a : Word} (hsvc : s.svc = .putsp a) (hlo : lo (s.memRead a) ≠ 0x00#8)
    (hhi : hi (s.memRead a) ≠ 0x00#8) :
    step s = .next (((s.emit (lo (s.memRead a))).emit (hi (s.memRead a))).setSvc (.putsp (a + 1))) := by
  rw [step_of_running hrunning, hsvc]
  exact (if_neg hlo).trans (if_neg hhi)

/-- A read to which no byte is supplied has no step (R153). -/
theorem step_of_blocked (hblocked : s.blocked) : step s = .fault .awaitingInput := by
  obtain ⟨hsvc | hsvc, hinput⟩ := hblocked
  · rw [step_of_running hrunning, hsvc]
    simp only [microGetc, State.awaitByte, hinput]
  · rw [step_of_running hrunning, hsvc]
    simp only [microIn, State.awaitByte, hinput]

/-- A running core that is not blocked has a step, whatever it fetches or prints (R95). -/
theorem exists_step (hfree : ¬ s.blocked) : ∃ t, step s = .next t := by
  cases hsvc : s.svc with
  | idle =>
    cases hdecode : decode (s.memRead s.pc) with
    | error k => exact ⟨_, step_of_decode_error ⟨hrunning, hsvc⟩ hdecode⟩
    | ok i =>
      rw [step_of_decode ⟨hrunning, hsvc⟩ hdecode]
      exact exists_exec i s.advance
  | waitGetc =>
    cases hinput : s.input with
    | nil => exact absurd ⟨.inl hsvc, hinput⟩ hfree
    | cons c rest => exact ⟨_, step_waitGetc hrunning hsvc hinput⟩
  | waitIn =>
    cases hinput : s.input with
    | nil => exact absurd ⟨.inr hsvc, hinput⟩ hfree
    | cons c rest => exact ⟨_, step_waitIn hrunning hsvc hinput⟩
  | puts a =>
    by_cases hlo : lo (s.memRead a) = 0x00#8
    · exact ⟨_, step_puts_end hrunning hsvc hlo⟩
    · exact ⟨_, step_puts_next hrunning hsvc hlo⟩
  | putsp a =>
    by_cases hlo : lo (s.memRead a) = 0x00#8
    · exact ⟨_, step_putsp_end hrunning hsvc hlo⟩
    · by_cases hhi : hi (s.memRead a) = 0x00#8
      · exact ⟨_, step_putsp_half hrunning hsvc hlo hhi⟩
      · exact ⟨_, step_putsp_next hrunning hsvc hlo hhi⟩

end

theorem not_blocked_of_ready {s : State} (h : s.ready) : ¬ s.blocked := by
  rintro ⟨hsvc | hsvc, -⟩ <;> rw [h.2] at hsvc <;> cases hsvc

/-- Settles O7, going through what each state of the sequencer needs for a step. -/
theorem stepsExistExactlyWhileRunningAndNotBlocked : Obligations.StepsExistExactlyWhileRunningAndNotBlocked := by
  intro s
  constructor
  · rintro ⟨t, h⟩
    have hrunning := step_running h
    refine ⟨hrunning, fun hblocked => ?_⟩
    rw [step_of_blocked hrunning hblocked] at h
    cases h
  · exact fun ⟨hrunning, hfree⟩ => exists_step hrunning hfree

/-- Halted and Error are terminal (R104). -/
theorem step_of_ended {s : State} (h : s.status ≠ .running) : step s = .fault .runEnded := by
  cases hs : s.status with
  | running => exact absurd hs h
  | halted => simp only [step, hs]
  | error k w a => simp only [step, hs]

/-- Settles O8: a blocked read completes with the one byte supplied. -/
theorem endedAndBlockedStatesStopByName : Obligations.EndedAndBlockedStatesStopByName := by
  refine ⟨fun s => step_of_ended, fun s => step_of_blocked, fun s c hrunning hblocked => ?_⟩
  obtain ⟨hsvc | hsvc, hinput⟩ := hblocked
  · exact ⟨_, step_waitGetc (s := s.supply [c]) hrunning hsvc (by rw [State.supply_input, hinput]; rfl), rfl, rfl⟩
  · obtain ⟨-, -, -, -, hidle, -, hrest, -⟩ := State.finishIn_frame { s.supply [c] with input := [] }
      Config.readHighByte Config.inEchoSuffix c
    exact ⟨_, step_waitIn (s := s.supply [c]) hrunning hsvc (by rw [State.supply_input, hinput]; rfl), hidle, hrest⟩

end Sys2Proof.Machine
end

