-- ==== Sys2Proof/Proofs/WordErrors.lean ====
section
/-! PROOF. The words each error kind arises for (R82 to R84), and that a decoded word has one canonical name (R90). -/

namespace Sys2Proof

open Sys2Proof.Machine

/-- The decoder answers `jmp` itself only below R7 (R90). -/
theorem jmpIsCanonical_of_decode {w : Word} {base : Reg} (h : decode w = .ok (.jmp base)) :
    Instr.jmpIsCanonical base = true := by
  rw [← encode_of_decode h, encode, decode_wordJmp] at h
  refine bne_iff_ne.mpr fun hbase => ?_
  rw [hbase] at h
  cases h

theorem wf_of_decode {w : Word} {i : Instr} (h : decode w = .ok i) : i.wf = true := by
  cases i with
  | jmp base => exact jmpIsCanonical_of_decode h
  | trap v =>
    have hv := (Service.ofVector_eq_none_iff v).mp (ofVector_eq_none_of_decode h)
    simpa [Instr.wf, Instr.trapIsCanonical] using hv
  | _ => rfl

/-- Settles O3: the two general rows have a check of their own, and the encoding is the word by R88. -/
theorem decodedInstructionsAreWellFormed : Obligations.DecodedInstructionsAreWellFormed :=
  fun _ _ h => ⟨wf_of_decode h, encode_of_decode h⟩

/-! Padding (R82) -/

theorem bit_eq_zero_iff (b : BitVec 1) : b = 0#1 ↔ ¬ b = 1#1 := by
  revert b; decide

/-- A padding check fails where its condition does. -/
theorem ite_ok_eq_error_iff {p : Prop} [Decidable p] {i : Instr} {e : Except ErrorKind Instr} {k : ErrorKind} :
    (if p then .ok i else e) = .error k ↔ ¬ p ∧ e = .error k := by
  split <;> simp [*]

/-- The words with wrong padding, opcode by opcode. -/
theorem decode_eq_error_reservedBits_iff (w : Word) :
    decode w = .error .reservedBits ↔
      ((field w 15 12 = 0b0001#4 ∨ field w 15 12 = 0b0101#4) ∧ field w 5 5 = 0#1 ∧ field w 4 3 ≠ 0b00#2) ∨
      (field w 15 12 = 0b1001#4 ∧ field w 5 0 ≠ 0b111111#6) ∨
      (field w 15 12 = 0b1100#4 ∧ (field w 11 9 ≠ 0b000#3 ∨ field w 5 0 ≠ 0b000000#6)) ∨
      (field w 15 12 = 0b0100#4 ∧ field w 11 11 = 0#1 ∧
        (field w 10 9 ≠ 0b00#2 ∨ field w 5 0 ≠ 0b000000#6)) ∨
      (field w 15 12 = 0b1111#4 ∧ field w 11 8 ≠ 0b0000#4) := by
  have hbits : field w 15 12 = (opcode w).bits := field_eq_bits_of_opcode rfl
  rw [hbits, bit_eq_zero_iff, bit_eq_zero_iff]
  unfold decode
  cases opcode w <;> simp [Opcode.bits, ite_ok_eq_error_iff, ← imp_iff_not_or]

theorem invalid_ne_reservedBits (i : Instr) : i.invalid ≠ some .reservedBits := by
  cases i <;> simp [Instr.invalid]

theorem classify_eq_error_reservedBits_iff (w : Word) :
    classify w = .error .reservedBits ↔ decode w = .error .reservedBits := by
  constructor
  · intro h
    obtain hdecode | ⟨i, -, hinvalid⟩ := decode_of_classify_error h
    · exact hdecode
    · exact absurd hinvalid (invalid_ne_reservedBits i)
  · exact classify_of_decode_error

/-! The rows that are always an error (R83, R84) -/

/-- The decoder itself rejects words for their padding only. -/
theorem decode_ne_error {w : Word} {k : ErrorKind} (hk : k ≠ .reservedBits) : decode w ≠ .error k := by
  unfold decode
  cases opcode w <;> simp [ite_ok_eq_error_iff, hk.symm]

/-- The other kinds come from the row the word decodes to, of which the word is the encoding. -/
theorem exists_invalid_of_classify_error {w : Word} {k : ErrorKind} (hk : k ≠ .reservedBits)
    (h : classify w = .error k) : ∃ i : Instr, i.invalid = some k ∧ encode i = w := by
  obtain hdecode | ⟨i, hdecode, hinvalid⟩ := decode_of_classify_error h
  · exact absurd hdecode (decode_ne_error hk)
  · exact ⟨i, hinvalid, encode_of_decode hdecode⟩

theorem classify_eq_error_zeroBranchCondition_iff (w : Word) :
    classify w = .error .zeroBranchCondition ↔ field w 15 12 = 0b0000#4 ∧ field w 11 9 = 0b000#3 := by
  constructor
  · intro h
    obtain ⟨i, hinvalid, rfl⟩ := exists_invalid_of_classify_error (by decide) h
    cases i <;> simp [Instr.invalid] at hinvalid
    next nzp off9 => exact ⟨field_wordBr_op nzp off9, (field_wordBr_nzp nzp off9).trans hinvalid⟩
  · rintro ⟨hop, hnzp⟩
    exact classify_of_invalid (decode_br w hop) (if_pos hnzp)

theorem classify_eq_error_rti_iff (w : Word) : classify w = .error .rti ↔ field w 15 12 = 0b1000#4 := by
  constructor
  · intro h
    obtain ⟨i, hinvalid, rfl⟩ := exists_invalid_of_classify_error (by decide) h
    cases i <;> simp [Instr.invalid] at hinvalid
    next low12 => exact field_wordAny_op .rti low12
  · exact fun hop => classify_of_invalid (decode_rti w hop) rfl

theorem classify_eq_error_reservedOpcode_iff (w : Word) :
    classify w = .error .reservedOpcode ↔ field w 15 12 = 0b1101#4 := by
  constructor
  · intro h
    obtain ⟨i, hinvalid, rfl⟩ := exists_invalid_of_classify_error (by decide) h
    cases i <;> simp [Instr.invalid] at hinvalid
    next low12 => exact field_wordAny_op .reserved low12
  · exact fun hop => classify_of_invalid (decode_reserved w hop) rfl

theorem ofVector_eq_none_iff_toNat (v : BitVec 8) :
    Service.ofVector v = none ↔ v.toNat < 0x20 ∨ 0x25 < v.toNat :=
  Service.ofVector_eq_none_iff v

theorem classify_eq_error_unknownTrapVector_iff (w : Word) :
    classify w = .error .unknownTrapVector ↔
      field w 15 12 = 0b1111#4 ∧ field w 11 8 = 0b0000#4 ∧
        ((field w 7 0).toNat < 0x20 ∨ 0x25 < (field w 7 0).toNat) := by
  rw [← ofVector_eq_none_iff_toNat]
  constructor
  · intro h
    obtain ⟨i, hinvalid, rfl⟩ := exists_invalid_of_classify_error (by decide) h
    cases i <;> simp [Instr.invalid] at hinvalid
    next v =>
      refine ⟨field_wordTrap_op v, field_wordTrap_padding v, ?_⟩
      rw [encode, field_wordTrap_vect8]
      exact hinvalid
  · rintro ⟨hop, hpad, hv⟩
    refine classify_of_invalid (i := .trap (field w 7 0)) ?_ (if_pos hv)
    rw [decode_trap w hop, if_pos hpad, trapInstr, hv]

/-- Settles O4: the step records the kind its word is classified with. -/
theorem instructionErrorsArePreciselyTheListedWords :
    Obligations.InstructionErrorsArePreciselyTheListedWords := by
  rintro s w hready rfl
  obtain ⟨t, hstep⟩ := exists_step hready.1 (not_blocked_of_ready hready)
  have hkind (k : ErrorKind) :
      t.status = .error k (s.memRead s.pc) s.pc ↔ classify (s.memRead s.pc) = .error k := by
    rw [(runsEndOnlyByHaltOrInstructionError s t hstep).2]
    exact ⟨fun h => h.2.2.2, fun h => ⟨hready, rfl, rfl, h⟩⟩
  exact ⟨t, hstep,
    (hkind _).trans ((classify_eq_error_reservedBits_iff _).trans (decode_eq_error_reservedBits_iff _)),
    (hkind _).trans (classify_eq_error_zeroBranchCondition_iff _),
    (hkind _).trans (classify_eq_error_rti_iff _),
    (hkind _).trans (classify_eq_error_reservedOpcode_iff _),
    (hkind _).trans (classify_eq_error_unknownTrapVector_iff _)⟩

end Sys2Proof
end

