-- ==== Sys2Proof/Proofs/Results.lean ====
section
/-! PROOF. What each of the writing operations leaves, in the words of the statements, and how these results go from
an instruction to the step that fetches it and through two steps. That the fetch moves `pc` matters to none of them,
since each says where `pc` is and none reads where it was. -/

namespace Sys2Proof.Machine

/-! One operation -/

theorem registerResult_writeResult (s : State) (dr : Reg) (v : Word) :
    RegisterResult dr v s.pc s (s.writeResult dr v) :=
  ⟨by simp, fun r hr => by simp [hr], signFlag_ccOf v, rfl, fun _ => rfl, ⟨rfl, rfl, rfl, rfl⟩, ⟨rfl, rfl, rfl⟩⟩

theorem registerOnly_setReg (s : State) (r : Reg) (v p : Word) :
    RegisterOnly r v p s ((s.setReg r v).setPc p) :=
  ⟨by simp, fun q hq => by simp [hq], rfl, rfl, fun _ => rfl, ⟨rfl, rfl, rfl, rfl⟩, ⟨rfl, rfl, rfl⟩⟩

/-- The link and the jump of JSRR: only JSRR R7 tells the two orders apart (R143). -/
theorem registerOnly_linkAndJump (s : State) (o : LinkOrder) (base : Reg) :
    RegisterOnly 7 s.pc (if base = 7 ∧ o = .linkFirst then s.pc else s.reg base) s (s.linkAndJump o base) := by
  have hpc : (s.linkAndJump o base).pc = if base = 7 ∧ o = .linkFirst then s.pc else s.reg base := by
    rw [State.linkAndJump_pc]
    by_cases hbase : base = 7 <;> cases o <;> simp [hbase]
  rw [← hpc]
  exact registerOnly_setReg s 7 s.pc _

theorem wordStored_memWrite (s : State) (ea v : Word) : WordStored ea v s.pc s (s.memWrite ea v) :=
  ⟨by simp, fun a ha => by simp [ha], fun _ => rfl, rfl, rfl, ⟨rfl, rfl, rfl, rfl⟩, ⟨rfl, rfl, rfl⟩⟩

theorem onlyJumped_setPc (s : State) (p : Word) : OnlyJumped p s (s.setPc p) :=
  ⟨rfl, fun _ => rfl, rfl, fun _ => rfl, ⟨rfl, rfl, rfl, rfl⟩, ⟨rfl, rfl, rfl⟩⟩

/-! From the instruction to the step -/

/-- What holds after the instruction holds after the step that fetches it (R106). -/
theorem exists_step_of_exec {s : State} {i : Instr} {P : State → Prop} (hready : s.ready)
    (hdecode : decode (s.memRead s.pc) = .ok i) (h : ∃ t, exec i s.advance = .next t ∧ P t) :
    ∃ t, step s = .next t ∧ P t := by
  rwa [step_of_decode hready hdecode]

/-- A word with wrong padding raises its error (R82, R99). -/
theorem exists_step_of_decode_error {s : State} {k : ErrorKind} (hready : s.ready)
    (hdecode : decode (s.memRead s.pc) = .error k) :
    ∃ t, step s = .next t ∧ ErrorTaken k (s.memRead s.pc) s.pc s t :=
  exists_step_of_classify_error hready (classify_of_decode_error hdecode)

/-! Two steps -/

theorem run_two {s t u : State} (hs : step s = .next t) (ht : step t = .next u) :
    Host.Core.run Sys2Proof.core 2 s = .next u :=
  (run_succ 1 hs).trans (run_succ 0 ht)

theorem SameMemory.trans {s t u : State} (h : SameMemory s t) (h' : SameMemory t u) : SameMemory s u :=
  fun a => (h' a).trans (h a)

theorem SameRegsBut.trans {dr : Reg} {s t u : State} (h : SameRegsBut dr s t) (h' : SameRegsBut dr t u) :
    SameRegsBut dr s u :=
  fun r hr => (h' r hr).trans (h r hr)

theorem SameConsole.trans {s t u : State} (h : SameConsole s t) (h' : SameConsole t u) : SameConsole s u := by
  obtain ⟨hout, hunflushed, hlastNL, hinput⟩ := h
  obtain ⟨hout', hunflushed', hlastNL', hinput'⟩ := h'
  exact ⟨hout'.trans hout, hunflushed'.trans hunflushed, hlastNL'.trans hlastNL, hinput'.trans hinput⟩

theorem SameControl.trans {s t u : State} (h : SameControl s t) (h' : SameControl t u) : SameControl s u := by
  obtain ⟨hstatus, hsvc, hdraws⟩ := h
  obtain ⟨hstatus', hsvc', hdraws'⟩ := h'
  exact ⟨hstatus'.trans hstatus, hsvc'.trans hsvc, hdraws'.trans hdraws⟩

theorem SameControl.ready {s t : State} (h : SameControl s t) (hready : s.ready) : t.ready :=
  ⟨h.1.trans hready.1, h.2.1.trans hready.2⟩

/-- The later of two results in one register stands. -/
theorem RegisterResult.trans {dr : Reg} {v v' p p' : Word} {s t u : State} (h : RegisterResult dr v p s t)
    (h' : RegisterResult dr v' p' t u) : RegisterResult dr v' p' s u := by
  obtain ⟨-, hregs, -, -, hmem, hconsole, hcontrol⟩ := h
  obtain ⟨hv', hregs', hcc', hpc', hmem', hconsole', hcontrol'⟩ := h'
  exact ⟨hv', hregs.trans hregs', hcc', hpc', hmem.trans hmem', hconsole.trans hconsole', hcontrol.trans hcontrol'⟩

/-- A jump after a link keeps the link. -/
theorem RegisterOnly.jump {dr : Reg} {v p p' : Word} {s t u : State} (h : RegisterOnly dr v p s t)
    (h' : OnlyJumped p' t u) : RegisterOnly dr v p' s u := by
  obtain ⟨hv, hregs, hcc, -, hmem, hconsole, hcontrol⟩ := h
  obtain ⟨hpc', hregs', hcc', hmem', hconsole', hcontrol'⟩ := h'
  exact ⟨(hregs' dr).trans hv, fun r hr => (hregs' r).trans (hregs r hr), hcc'.trans hcc, hpc', hmem.trans hmem',
    hconsole.trans hconsole', hcontrol.trans hcontrol'⟩

end Sys2Proof.Machine
end

