-- ==== Sys2Proof/Proofs/Words.lean ====
section
/-! PROOF. The operands of a word by its own bits, for the statements that take them with `extractLsb`. -/

namespace Sys2Proof

theorem fieldDr_eq {w : Word} {r : Reg} (h : (w.extractLsb 11 9).toNat = r.val) : fieldDr w = r :=
  Fin.ext h

theorem fieldSr1_eq {w : Word} {r : Reg} (h : (w.extractLsb 8 6).toNat = r.val) : fieldSr1 w = r :=
  Fin.ext h

theorem fieldSr2_eq {w : Word} {r : Reg} (h : (w.extractLsb 2 0).toNat = r.val) : fieldSr2 w = r :=
  Fin.ext h

/-! The condition bits of BR (R73) -/

theorem field_11_9_getLsbD_two (w : Word) : (field w 11 9).getLsbD 2 = w.getLsbD 11 := by
  simp [field]

theorem field_11_9_getLsbD_one (w : Word) : (field w 11 9).getLsbD 1 = w.getLsbD 10 := by
  simp [field]

theorem field_11_9_getLsbD_zero (w : Word) : (field w 11 9).getLsbD 0 = w.getLsbD 9 := by
  simp [field]

/-- Two fields side by side, as a number. -/
theorem toNat_append_eq_add {m n : Nat} (a : BitVec m) (b : BitVec n) :
    (a ++ b).toNat = a.toNat * 2 ^ n + b.toNat := by
  rw [BitVec.toNat_append, ← Nat.shiftLeft_add_eq_or_of_lt b.isLt, Nat.shiftLeft_eq]

/-- Two fields side by side, as a sum of words. -/
theorem append_eq_add {m n : Nat} (a : BitVec m) (b : BitVec n) : a ++ b = (a ++ 0#n) + b.setWidth (m + n) := by
  apply BitVec.eq_of_toNat_eq
  have hlt := (a ++ b).isLt
  rw [toNat_append_eq_add] at hlt
  have hb : b.toNat % 2 ^ (m + n) = b.toNat := Nat.mod_eq_of_lt (by omega)
  rw [BitVec.toNat_add, BitVec.toNat_setWidth, hb, toNat_append_eq_add, toNat_append_eq_add, BitVec.toNat_zero,
    Nat.add_zero, Nat.mod_eq_of_lt hlt]

end Sys2Proof
end

