-- ==== Sys2Proof/Proofs/Operate.lean ====
section
/-! PROOF. ADD, AND and NOT, as instructions and as words (R115 to R120). -/

namespace Sys2Proof.Machine

/-- Settles O10: what is left of each clause is that its arithmetic is the model's word operation. -/
theorem operateInstructionsComplete : Obligations.OperateInstructionsComplete := by
  refine ⟨fun s dr sr1 sr2 => ⟨_, rfl, ?_⟩, fun s dr sr1 imm5 => ⟨_, rfl, ?_⟩,
    fun s dr sr1 sr2 => ⟨_, rfl, registerResult_writeResult s dr _⟩,
    fun s dr sr1 imm5 => ⟨_, rfl, registerResult_writeResult s dr _⟩, fun s dr sr => ⟨_, rfl, ?_⟩⟩
  · have hsum : BitVec.ofNat 16 ((s.reg sr1).toNat + (s.reg sr2).toNat) = s.reg sr1 + s.reg sr2 := by
      rw [BitVec.ofNat_add, BitVec.ofNat_toNat, BitVec.ofNat_toNat, BitVec.setWidth_eq, BitVec.setWidth_eq]
    rw [hsum]
    exact registerResult_writeResult s dr _
  · have hsum : BitVec.ofInt 16 ((s.reg sr1).toInt + imm5.toInt) = s.reg sr1 + sext imm5 := by
      rw [BitVec.ofInt_add, BitVec.ofInt_toInt]; rfl
    rw [hsum]
    exact registerResult_writeResult s dr _
  · have hnot : BitVec.ofNat 16 (65535 - (s.reg sr).toNat) = ~~~ s.reg sr := by
      apply BitVec.eq_of_toNat_eq
      have := (s.reg sr).isLt
      simp only [BitVec.toNat_ofNat, BitVec.toNat_not]
      omega
    rw [hnot]
    exact registerResult_writeResult s dr _

/-- ADD and AND differ in the operation only: a mode bit, two operand forms, and one padding (R69, R70, R82). -/
theorem exists_step_of_two_modes {s : State} {imm reg : Instr} {dr : Reg} {vImm vReg : Word} (hready : s.ready)
    (hdecode : decode (s.memRead s.pc) =
      if field (s.memRead s.pc) 5 5 = 1#1 then .ok imm
      else if field (s.memRead s.pc) 4 3 = 0b00#2 then .ok reg else .error .reservedBits)
    (himm : exec imm s.advance = .next (s.advance.writeResult dr vImm))
    (hreg : exec reg s.advance = .next (s.advance.writeResult dr vReg)) :
    ∃ t, step s = .next t ∧
      if field (s.memRead s.pc) 5 5 = 1#1 then RegisterResult dr vImm (s.pc + 1) s t
      else if field (s.memRead s.pc) 4 3 = 0b00#2 then RegisterResult dr vReg (s.pc + 1) s t
      else ErrorTaken .reservedBits (s.memRead s.pc) s.pc s t := by
  split_ifs at hdecode ⊢ with hmode hpad
  · exact exists_step_of_exec hready hdecode ⟨_, himm, registerResult_writeResult s.advance dr _⟩
  · exact exists_step_of_exec hready hdecode ⟨_, hreg, registerResult_writeResult s.advance dr _⟩
  · exact exists_step_of_decode_error hready hdecode

/-- Settles O11 from the two modes. -/
theorem addWords : Obligations.AddWords := by
  rintro s ir dr sr1 sr2 hready rfl hop hdr hsr1 hsr2
  have hdecode := decode_add _ hop
  rw [fieldDr_eq hdr, fieldSr1_eq hsr1, fieldSr2_eq hsr2] at hdecode
  exact exists_step_of_two_modes hready hdecode rfl rfl

/-- Settles O12 from the two modes. -/
theorem andWords : Obligations.AndWords := by
  rintro s ir dr sr1 sr2 hready rfl hop hdr hsr1 hsr2
  have hdecode := decode_and _ hop
  rw [fieldDr_eq hdr, fieldSr1_eq hsr1, fieldSr2_eq hsr2] at hdecode
  exact exists_step_of_two_modes hready hdecode rfl rfl

/-- Settles O13, by the low six bits. -/
theorem notWords : Obligations.NotWords := by
  rintro s ir dr sr hready rfl hop hdr hsr
  have hdecode := decode_not _ hop
  rw [fieldDr_eq hdr, fieldSr1_eq hsr] at hdecode
  split_ifs with hones
  · exact exists_step_of_exec hready (hdecode.trans (if_pos hones))
      ⟨_, rfl, registerResult_writeResult s.advance dr _⟩
  · exact exists_step_of_decode_error hready (hdecode.trans (if_neg hones))

/-- Settles O14: in two's complement the negative is the complement plus one, and a double is a shift. -/
theorem softwareNegationAndShift : Obligations.SoftwareNegationAndShift := by
  constructor
  · intro s r hready hnot hadd
    obtain ⟨t, hstep, hresult⟩ := exists_step_of_exec (P := RegisterResult r (~~~ s.reg r) (s.pc + 1) s)
      hready hnot ⟨_, rfl, registerResult_writeResult s.advance r _⟩
    obtain ⟨hv, -, -, hpc, hmem, -, hcontrol⟩ := id hresult
    rw [← hmem, ← hpc] at hadd
    obtain ⟨u, hstep', hresult'⟩ := exists_step_of_exec (P := RegisterResult r (t.reg r + 1) (t.pc + 1) t)
      (hcontrol.ready hready) hadd ⟨_, rfl, registerResult_writeResult t.advance r _⟩
    have hneg : t.reg r + 1 = - s.reg r := by rw [hv, BitVec.neg_eq_not_add]; rfl
    have hpc' : t.pc + 1 = s.pc + 2 := by rw [hpc]; exact BitVec.add_assoc s.pc 1 1
    rw [hneg, hpc'] at hresult'
    exact ⟨u, run_two hstep hstep', hresult.trans hresult'⟩
  · intro s r hready hadd
    have hshift : s.reg r <<< 1 = s.reg r + s.reg r := by
      apply BitVec.eq_of_toNat_eq
      simp only [BitVec.toNat_shiftLeft, BitVec.toNat_add, Nat.shiftLeft_eq]
      omega
    rw [hshift]
    exact exists_step_of_exec hready hadd ⟨_, rfl, registerResult_writeResult s.advance r _⟩

end Sys2Proof.Machine
end

