-- ==== Sys2Proof/Proofs/LoadStore.lean ====
section
/-! PROOF. LEA, the loads and the stores, as instructions and as words (R125 to R131), and that a store is seen by the
next fetch (R59). -/

namespace Sys2Proof.Machine

/-- Settles O15: each meaning is one write to DR, at the address the statement names. -/
theorem loadInstructionsComplete : Obligations.LoadInstructionsComplete :=
  ⟨fun s dr _ => ⟨_, rfl, registerOnly_setReg s dr _ s.pc⟩,
    fun s dr _ => ⟨_, rfl, registerResult_writeResult s dr _⟩,
    fun s dr _ => ⟨_, rfl, registerResult_writeResult s dr _⟩,
    fun s dr _ _ => ⟨_, rfl, registerResult_writeResult s dr _⟩⟩

/-- Settles O16: each meaning is one store, whose address and word are read before it. -/
theorem storeInstructionsComplete : Obligations.StoreInstructionsComplete :=
  ⟨fun s _ _ => ⟨_, rfl, wordStored_memWrite s _ _⟩, fun s _ _ => ⟨_, rfl, wordStored_memWrite s _ _⟩,
    fun s _ _ _ => ⟨_, rfl, wordStored_memWrite s _ _⟩⟩

/-- Settles O17: LEA writes DR and no flag. -/
theorem leaWords : Obligations.LeaWords := by
  rintro s ir dr hready rfl hop hdr
  have hdecode := decode_lea _ hop
  rw [fieldDr_eq hdr] at hdecode
  exact exists_step_of_exec hready hdecode ⟨_, rfl, registerOnly_setReg s.advance dr _ (s.pc + 1)⟩

/-- Settles O18, opcode by opcode. -/
theorem loadWords : Obligations.LoadWords := by
  rintro s ir ea dr base hready rfl hdr hbase (⟨hop, rfl⟩ | ⟨hop, rfl⟩ | ⟨hop, rfl⟩)
  · have hdecode := decode_ld _ hop
    rw [fieldDr_eq hdr] at hdecode
    exact exists_step_of_exec hready hdecode ⟨_, rfl, registerResult_writeResult s.advance dr _⟩
  · have hdecode := decode_ldi _ hop
    rw [fieldDr_eq hdr] at hdecode
    exact exists_step_of_exec hready hdecode ⟨_, rfl, registerResult_writeResult s.advance dr _⟩
  · have hdecode := decode_ldr _ hop
    rw [fieldDr_eq hdr, fieldSr1_eq hbase] at hdecode
    exact exists_step_of_exec hready hdecode ⟨_, rfl, registerResult_writeResult s.advance dr _⟩

/-- Settles O19, opcode by opcode. -/
theorem storeWords : Obligations.StoreWords := by
  rintro s ir ea sr base hready rfl hsr hbase (⟨hop, rfl⟩ | ⟨hop, rfl⟩ | ⟨hop, rfl⟩)
  · have hdecode := decode_st _ hop
    rw [fieldDr_eq hsr] at hdecode
    exact exists_step_of_exec hready hdecode ⟨_, rfl, wordStored_memWrite s.advance _ _⟩
  · have hdecode := decode_sti _ hop
    rw [fieldDr_eq hsr] at hdecode
    exact exists_step_of_exec hready hdecode ⟨_, rfl, wordStored_memWrite s.advance _ _⟩
  · have hdecode := decode_str _ hop
    rw [fieldDr_eq hsr, fieldSr1_eq hbase] at hdecode
    exact exists_step_of_exec hready hdecode ⟨_, rfl, wordStored_memWrite s.advance _ _⟩

/-- The table of stores is what the meanings store. -/
theorem exec_of_storesTo {s : State} {i : Instr} {ea v : Word} (h : storesTo s i = some (ea, v)) :
    exec i s = .next (s.memWrite ea v) := by
  cases i with
  | st sr off9 => cases h; rfl
  | sti sr off9 => cases h; rfl
  | str sr base off6 => cases h; rfl
  | _ => cases h

/-- Settles O20: the next fetch reads memory as the store left it. -/
theorem storesAreSeenByTheNextFetch : Obligations.StoresAreSeenByTheNextFetch := by
  intro s i ea v hready hdecode hstores
  refine ⟨s.advance.memWrite ea v, (step_of_decode hready hdecode).trans (exec_of_storesTo hstores), hready, rfl, ?_,
    fun j hj => step_of_decode hready hj⟩
  simp [eq_comm (a := ea)]

end Sys2Proof.Machine
end

