-- ==== Sys2Proof/Proofs/Control.lean ====
section
/-! PROOF. BR, JMP, RET, JSR and JSRR, as instructions and as words (R140 to R143). -/

namespace Sys2Proof.Machine

/-- BR's test flag by flag (R140). -/
theorem branchTaken_iff (cc : CC) (nzp : BitVec 3) :
    branchTaken cc nzp = true ↔ (cc = .n ∧ nzp.getLsbD 2 = true) ∨ (cc = .z ∧ nzp.getLsbD 1 = true) ∨
      (cc = .p ∧ nzp.getLsbD 0 = true) := by
  rw [branchTaken_eq]
  cases cc <;> simp [BitVec.getLsbD_eq_getElem]

/-- BR with a condition goes to its target or to the next instruction (R140). -/
theorem exists_exec_br {nzp : BitVec 3} (hnzp : nzp ≠ 0b000#3) (off9 : BitVec 9) (s : State) :
    ∃ t, exec (.br nzp off9) s = .next t ∧
      OnlyJumped (if (s.cc = .n ∧ nzp.getLsbD 2 = true) ∨ (s.cc = .z ∧ nzp.getLsbD 1 = true) ∨
        (s.cc = .p ∧ nzp.getLsbD 0 = true) then s.pc + BitVec.ofInt 16 off9.toInt else s.pc) s t := by
  refine ⟨_, exec_br hnzp off9 s, ?_⟩
  rw [if_congr (branchTaken_iff s.cc nzp) rfl rfl]
  exact onlyJumped_setPc s _

/-- Settles O22: BR by its test, JSRR by its order, the others as jumps with or without a link. -/
theorem controlTransfersComplete : Obligations.ControlTransfersComplete :=
  ⟨fun s _ off9 hnzp => exists_exec_br hnzp off9 s, fun s _ => ⟨_, rfl, onlyJumped_setPc s _⟩,
    fun s => ⟨_, rfl, onlyJumped_setPc s _⟩, fun s _ => ⟨_, rfl, registerOnly_setReg s 7 s.pc _⟩,
    fun s base => ⟨_, rfl, registerOnly_linkAndJump s Config.jsrrLinkOrder base⟩⟩

/-- Settles O23: the condition bits of the word are the bits of the condition field. -/
theorem branchWords : Obligations.BranchWords := by
  rintro s ir hready rfl hop
  have hdecode := decode_br _ hop
  by_cases hnzp : (s.memRead s.pc).extractLsb 11 9 = 0b000#3
  · simp only [if_pos hnzp]
    exact exists_step_of_classify_error hready (classify_of_invalid hdecode (if_pos hnzp))
  · have hbr := exists_step_of_exec hready hdecode
      (exists_exec_br (nzp := field (s.memRead s.pc) 11 9) hnzp _ s.advance)
    simp only [field_11_9_getLsbD_two, field_11_9_getLsbD_one, field_11_9_getLsbD_zero, State.advance_cc] at hbr
    simp only [if_neg hnzp]
    split_ifs at hbr ⊢
    · exact hbr
    · exact hbr

/-- Settles O24: RET is JMP R7 under its own name. -/
theorem jmpAndRetWords : Obligations.JmpAndRetWords := by
  rintro s ir base hready rfl hop hbase
  have hdecode := decode_jmp _ hop
  rw [fieldSr1_eq hbase] at hdecode
  split_ifs with hpad
  · refine exists_step_of_exec hready (hdecode.trans (if_pos hpad)) ?_
    by_cases hret : base = 7
    · rw [jmpInstr, if_pos hret, hret]
      exact ⟨_, rfl, onlyJumped_setPc s.advance _⟩
    · rw [jmpInstr, if_neg hret]
      exact ⟨_, rfl, onlyJumped_setPc s.advance _⟩
  · exact exists_step_of_decode_error hready (hdecode.trans (if_neg hpad))

/-- Settles O25: a link and a jump. -/
theorem jsrWords : Obligations.JsrWords := by
  rintro s ir hready rfl hop hmode
  exact exists_step_of_exec hready ((decode_jsr _ hop).trans (if_pos hmode))
    ⟨_, rfl, registerOnly_setReg s.advance 7 _ _⟩

/-- Settles O26, for either order of the open parameter. -/
theorem jsrrWords : Obligations.JsrrWords := by
  rintro s ir base hready rfl hop hmode hbase
  have hdecode := decode_jsr _ hop
  have hjsrr : ¬ field (s.memRead s.pc) 11 11 = 1#1 := (bit_eq_zero_iff _).mp hmode
  rw [if_neg hjsrr, fieldSr1_eq hbase] at hdecode
  by_cases hpad : field (s.memRead s.pc) 10 9 = 0b00#2 ∧ field (s.memRead s.pc) 5 0 = 0b000000#6
  · obtain ⟨t, hstep, hlink⟩ : ∃ t, step s = .next t ∧ RegisterOnly 7 (s.pc + 1)
        (if base = 7 ∧ Config.jsrrLinkOrder = .linkFirst then s.pc + 1 else s.reg base) s t :=
      exists_step_of_exec hready (hdecode.trans (if_pos hpad))
        ⟨_, rfl, registerOnly_linkAndJump s.advance Config.jsrrLinkOrder base⟩
    refine ⟨t, hstep, (if_pos hpad).mpr ?_⟩
    cases horder : Config.jsrrLinkOrder <;> simpa [horder] using hlink
  · obtain ⟨t, hstep, herror⟩ := exists_step_of_decode_error hready (hdecode.trans (if_neg hpad))
    exact ⟨t, hstep, (if_neg hpad).mpr herror⟩

/-- Settles O27: the jump lands on RET, which goes back to the link. -/
theorem jsrThenRetReturns : Obligations.JsrThenRetReturns := by
  intro s off11 hready hjsr htarget
  obtain ⟨t, hstep, hlink⟩ := exists_step_of_exec (P := RegisterOnly 7 (s.pc + 1) (s.advance.pcRel off11) s)
    hready hjsr ⟨_, rfl, registerOnly_setReg s.advance 7 _ _⟩
  obtain ⟨hv, -, -, hpc, hmem, -, hcontrol⟩ := id hlink
  have hret : decode (t.memRead t.pc) = .ok .ret := by
    rw [hpc, hmem]
    exact (congrArg decode htarget).trans (by decide)
  obtain ⟨u, hstep', hjump⟩ := exists_step_of_exec (P := OnlyJumped (t.reg 7) t) (hcontrol.ready hready) hret
    ⟨_, rfl, onlyJumped_setPc t.advance _⟩
  rw [hv] at hjump
  exact ⟨u, run_two hstep hstep', hlink.jump hjump⟩

/-- The branch to itself changes nothing at all (R107). -/
theorem step_of_self_branch {s : State} (hready : s.ready) (h : s.memRead s.pc = 0x0FFF#16) :
    step s = .next s := by
  have hdecode : decode (s.memRead s.pc) = .ok (.br 0b111#3 0x1FF#9) := by rw [h]; decide
  have hback : s.pc + 1 + sext 0x1FF#9 = s.pc := by
    rw [BitVec.add_assoc]
    exact BitVec.add_zero s.pc
  rw [step_of_decode hready hdecode, exec_br (by decide), branchTaken_all, if_pos rfl]
  change Host.Outcome.next (s.setPc (s.pc + 1 + sext 0x1FF#9)) = _
  rw [hback]
  rfl

/-- Settles O28, by induction on the number of steps. -/
theorem selfBranchRunsForever : Obligations.SelfBranchRunsForever := by
  intro s hready hword
  have hrun (n : Nat) : Host.Core.run Sys2Proof.core n s = .next s := by
    induction n with
    | zero => rfl
    | succ n ih => rw [run_succ n (step_of_self_branch hready hword), ih]
  have hreaches (t : State) (h : Reaches s t) : t = s := by
    obtain ⟨n, hn⟩ := h
    rw [hrun n] at hn
    cases hn
    rfl
  refine ⟨hrun, hreaches, ?_⟩
  rintro t h ⟨k, w, a, herror⟩
  rw [hreaches t h, hready.1] at herror
  cases herror

end Sys2Proof.Machine
end

