-- ==== Sys2Proof/Proofs/Errors.lean ====
section
/-! PROOF. The instructions that are always an error, by their own word, and the words of RTI and of the reserved
opcode (R168, R175, R176). -/

namespace Sys2Proof.Machine

theorem errorTaken_raiseFor (s : State) (k : ErrorKind) (i : Instr) :
    ErrorTaken k (encode i) (s.pc - 1) s (s.raiseFor k i) :=
  errorTaken_raise s k _ _

/-! Their words as sums of the opcode's bits and the operand (R73, R78, R79) -/

theorem encode_rti (low12 : BitVec 12) : encode (.rti low12) = 0x8000#16 + low12.setWidth 16 :=
  append_eq_add Opcode.rti.bits low12

theorem encode_reserved (low12 : BitVec 12) : encode (.reserved low12) = 0xD000#16 + low12.setWidth 16 :=
  append_eq_add Opcode.reserved.bits low12

theorem encode_br_zero (off9 : BitVec 9) : encode (.br 0b000#3 off9) = off9.setWidth 16 :=
  (append_eq_add (Opcode.br.bits ++ 0b000#3) off9).trans (BitVec.zero_add _)

theorem encode_trap (v : BitVec 8) : encode (.trap v) = 0xF000#16 + v.setWidth 16 :=
  append_eq_add (Opcode.trap.bits ++ 0b0000#4) v

/-- TRAP with an unknown vector takes its error (R168). -/
theorem exists_exec_trap_unknown (s : State) {v : BitVec 8} (hv : v.toNat < 0x20 ∨ 0x25 < v.toNat) :
    ∃ t, exec (.trap v) s = .next t ∧
      ErrorTaken .unknownTrapVector (0xF000#16 + v.setWidth 16) (s.pc - 1) s t := by
  rw [← encode_trap]
  exact ⟨_, exec_trap_unknown ((ofVector_eq_none_iff_toNat v).mpr hv) s, errorTaken_raiseFor s _ _⟩

/-- Settles O43: each meaning is its error, whose word is the encoding. -/
theorem invalidInstructionsTakeTheirError : Obligations.InvalidInstructionsTakeTheirError :=
  ⟨fun s low12 => encode_rti low12 ▸ ⟨_, rfl, errorTaken_raiseFor s .rti (.rti low12)⟩,
    fun s low12 => encode_reserved low12 ▸ ⟨_, rfl, errorTaken_raiseFor s .reservedOpcode (.reserved low12)⟩,
    fun s off9 => encode_br_zero off9 ▸ ⟨_, rfl, errorTaken_raiseFor s .zeroBranchCondition (.br 0b000#3 off9)⟩,
    fun s _ hv => exists_exec_trap_unknown s hv⟩

/-- Settles O44: these two opcodes are rejected whatever the low twelve bits are. -/
theorem rtiAndReservedWordsAlwaysErr : Obligations.RtiAndReservedWordsAlwaysErr := by
  rintro s ir hready rfl
  exact ⟨fun hop => exists_step_of_classify_error hready ((classify_eq_error_rti_iff _).mpr hop),
    fun hop => exists_step_of_classify_error hready ((classify_eq_error_reservedOpcode_iff _).mpr hop)⟩

end Sys2Proof.Machine
end

