-- ==== Sys2Proof/Proofs/Services.lean ====
section
/-! PROOF. TRAP, the six services it starts and their micro-steps (R150 to R168). Each service puts out one string,
perhaps an empty one, so its frame is the frame of `State.emitAll`. -/

namespace Sys2Proof.Machine

/-! Frames and the line-start bit -/

theorem serviceFrame_refl (s : State) : ServiceFrame s s :=
  ⟨fun _ => rfl, fun _ => rfl, rfl, rfl, rfl, rfl⟩

theorem serviceFrame_emitAll (s : State) (bs : List Byte) : ServiceFrame s (s.emitAll bs) :=
  ⟨fun a => s.emitAll_memRead bs a, fun r => s.emitAll_reg bs r, s.emitAll_cc bs, s.emitAll_input bs,
    s.emitAll_status bs, s.emitAll_draws bs⟩

theorem sameConsole_refl (s : State) : SameConsole s s :=
  ⟨rfl, rfl, rfl, rfl⟩

theorem emit_lastNL_iff (s : State) (b : Byte) : (s.emit b).lastNL = true ↔ b = 0x0A#8 :=
  decide_eq_true_iff

theorem serviceFrame_startIn (s : State) (prompt : List Byte) : ServiceFrame s (s.startIn prompt) := by
  rw [State.startIn_eq]
  exact serviceFrame_emitAll s _

theorem lineStart_eq (bs : List Byte) :
    lineStart bs = (bs.getLast?.map (fun b => decide (b = 0x0A#8))).getD true := by
  unfold lineStart
  cases bs.getLast? <;> rfl

/-- After IN's prompt the line-start bit does not depend on what was put out before (R163). -/
theorem State.startIn_lastNL (s : State) (prompt : List Byte) :
    (s.startIn prompt).lastNL = lineStart prompt := by
  rw [(emits_startIn s prompt).2.1, lineStart_eq]
  cases s.lastNL <;> cases h : prompt.getLast? <;> simp [List.getLast?_cons, h]

theorem State.finishIn_lastNL (s : State) (mode : ReadHighByte) (suffix : List Byte) (c : Byte) :
    (s.finishIn mode suffix c).lastNL = lineStart (c :: suffix) := by
  rw [(emits_finishIn s mode suffix c).2.1, lineStart_eq, List.getLast?_cons]
  rfl

/-! The instructions (R155 to R168) -/

/-- IN puts its prompt on a line of its own and waits (R163). -/
theorem exists_exec_in (s : State) : ∃ t, exec .in_ s = .next t ∧ ServiceFrame s t ∧ t.pc = s.pc ∧
    t.svc = .waitIn ∧ t.out = s.out ++ (if s.lastNL = true then [] else [0x0A#8]) ++ Config.inPrompt ∧
    t.unflushed = 0 ∧ t.lastNL = lineStart Config.inPrompt := by
  obtain ⟨-, -, hpc, -, -, hsvc, hunflushed, -⟩ := s.startIn_frame Config.inPrompt
  exact ⟨_, rfl, serviceFrame_startIn s _, hpc, hsvc, s.startIn_out _, hunflushed, s.startIn_lastNL _⟩

/-- OUT puts out one byte and flushes (R157). -/
theorem exists_exec_out (s : State) : ∃ t, exec .out s = .next t ∧ ServiceFrame s t ∧ t.pc = s.pc ∧
    t.svc = s.svc ∧ t.out = s.out ++ [(s.reg 0).extractLsb 7 0] ∧ t.unflushed = 0 ∧
    (t.lastNL = true ↔ (s.reg 0).extractLsb 7 0 = 0x0A#8) :=
  ⟨_, rfl, serviceFrame_emitAll s [lo (s.reg 0)], rfl, rfl, rfl, rfl, emit_lastNL_iff s _⟩

/-- Settles O30, service by service. -/
theorem serviceInstructionsComplete : Obligations.ServiceInstructionsComplete := fun s =>
  ⟨⟨_, rfl, serviceFrame_refl s, rfl, rfl, sameConsole_refl s⟩, exists_exec_out s,
    ⟨_, rfl, serviceFrame_refl s, rfl, rfl, sameConsole_refl s⟩, exists_exec_in s,
    ⟨_, rfl, serviceFrame_refl s, rfl, rfl, sameConsole_refl s⟩,
    ⟨_, rfl, rfl, fun _ => rfl, fun _ => rfl, rfl, rfl, rfl, rfl, rfl, rfl, rfl, rfl⟩⟩

/-- Settles O31: `exec` of TRAP with a service's vector is by definition `exec` of the service. -/
theorem trapDispatchesByVector : Obligations.TrapDispatchesByVector := by
  intro s v
  obtain ⟨t, h⟩ := exists_exec (.trap v) s
  refine ⟨t, h, ?_, ?_, ?_, ?_, ?_, ?_, fun hv => ?_⟩
  case refine_7 =>
    obtain ⟨u, hu, herror⟩ := exists_exec_trap_unknown s hv
    rw [h] at hu
    cases hu
    exact herror
  all_goals rintro rfl; exact h

/-- A TRAP word with a service's vector and clean padding runs the service (R150). -/
theorem exists_step_of_service {s : State} {x : Service} {i : Instr} {P : State → Prop} (hready : s.ready)
    (hword : s.memRead s.pc = wordTrap x.vector) (hi : trapInstr x.vector = i)
    (h : ∃ t, exec i s.advance = .next t ∧ P t) : ∃ t, step s = .next t ∧ P t :=
  exists_step_of_exec hready (by rw [hword, decode_wordTrap, hi]) h

/-- Settles O32: padding first, then a service of that vector or none (R169). -/
theorem trapWords : Obligations.TrapWords := by
  rintro s ir hready rfl hop
  by_cases hpad : field (s.memRead s.pc) 11 8 = 0b0000#4
  · have hword := wordTrap_fields _ hop hpad
    cases hv : Service.ofVector (field (s.memRead s.pc) 7 0) with
    | none =>
      have hunknown := (ofVector_eq_none_iff_toNat _).mp hv
      obtain ⟨t, hstep, herror⟩ := exists_step_of_classify_error hready
        ((classify_eq_error_unknownTrapVector_iff _).mpr ⟨hop, hpad, hunknown⟩)
      refine ⟨t, hstep, (if_neg (not_not.mpr hpad)).mpr ?_⟩
      unfold field at hunknown
      split
      case h_7 => exact herror
      all_goals omega
    | some x =>
      have hvector : (s.memRead s.pc).extractLsb 7 0 = x.vector := (Service.vector_of_ofVector hv).symm
      obtain ⟨t, hexec⟩ := exists_exec (trapInstr x.vector) s.advance
      have hdecode : decode (s.memRead s.pc) = .ok (trapInstr x.vector) := by
        rw [decode_trap _ hop, if_pos hpad, Service.vector_of_ofVector hv]
      refine ⟨t, (step_of_decode hready hdecode).trans hexec, (if_neg (not_not.mpr hpad)).mpr ?_⟩
      rw [hvector]
      cases x <;> exact hexec
  · obtain ⟨t, hstep, herror⟩ := exists_step_of_decode_error hready ((decode_trap _ hop).trans (if_neg hpad))
    exact ⟨t, hstep, (if_pos hpad).mpr herror⟩

/-! GETC (R155, R156) -/

/-- A console read writes R0 and no other register. -/
theorem reg_zero_of_read {s t : State} {v : Word} (h : ∀ r, t.reg r = if r = 0 then v else s.reg r) :
    t.reg 0 = v ∧ SameRegsBut 0 s t :=
  ⟨h 0, fun r hr => (h r).trans (if_neg hr)⟩

/-- Settles O33: the TRAP step moves the sequencer, the completion writes R0. -/
theorem getcReadsOneByteWithoutEcho : Obligations.GetcReadsOneByteWithoutEcho := by
  constructor
  · intro s hready hword
    exact exists_step_of_service (x := .getc) hready hword rfl
      ⟨_, rfl, serviceFrame_refl s, rfl, rfl, sameConsole_refl s⟩
  · intro s c rest hrunning hsvc hinput
    obtain ⟨hreg, hregs⟩ := reg_zero_of_read (s := s)
      (State.finishGetc_reg { s with input := rest } Config.readHighByte c)
    exact ⟨_, step_waitGetc hrunning hsvc hinput, rfl, rfl, (congrArg lo hreg).trans (lo_readInto _ _ c),
      (congrArg hi hreg).trans (hi_readInto _ _ c), hregs, fun _ => rfl, rfl, rfl, rfl, rfl, rfl, rfl, rfl⟩

/-! OUT, IN and HALT (R157, R163, R164, R167) -/

/-- Settles O34: OUT as the instruction its TRAP word decodes to. -/
theorem outWritesTheLowByteOfR0 : Obligations.OutWritesTheLowByteOfR0 := by
  intro s hready hword
  obtain ⟨t, hstep, hframe, hpc, hsvc, hout⟩ :=
    exists_step_of_service (x := .out) hready hword rfl (exists_exec_out s.advance)
  exact ⟨t, hstep, hframe, hpc, hsvc.trans hready.2, hout⟩

/-- Settles O37: the TRAP step puts out the prompt, the completion the echo and the suffix. -/
theorem inPromptsReadsAndEchoes : Obligations.InPromptsReadsAndEchoes := by
  constructor
  · intro s hready hword
    exact exists_step_of_service (x := .inp) hready hword rfl (exists_exec_in s.advance)
  · intro s c rest hrunning hsvc hinput
    obtain ⟨hreg, hregs⟩ := reg_zero_of_read (s := s)
      (State.finishIn_reg { s with input := rest } Config.readHighByte Config.inEchoSuffix c)
    obtain ⟨hmem, hpc, hcc, hstatus, hidle, hunflushed, hrest, hdraws⟩ :=
      State.finishIn_frame { s with input := rest } Config.readHighByte Config.inEchoSuffix c
    exact ⟨_, step_waitIn hrunning hsvc hinput, hidle, hrest, (congrArg lo hreg).trans (lo_readInto _ _ c),
      (congrArg hi hreg).trans (hi_readInto _ _ c), State.finishIn_out _ _ _ c, hunflushed,
      State.finishIn_lastNL _ _ _ c, hregs, fun a => congrArg (Memory.read · a) hmem, hcc, hpc, hstatus, hdraws⟩

/-- Settles O38: HALT as the instruction its TRAP word decodes to. -/
theorem haltEndsTheRunCleanly : Obligations.HaltEndsTheRunCleanly := by
  intro s hready hword
  exact exists_step_of_service (x := .halt) hready hword rfl
    ⟨_, rfl, rfl, rfl, rfl, fun _ => rfl, fun _ => rfl, rfl, rfl, rfl, rfl, rfl, rfl, rfl⟩

/-! PUTS and PUTSP, word by word (R159, R166) -/

/-- Settles O35, by the low byte. -/
theorem putsMicroStep : Obligations.PutsMicroStep := by
  intro s a hrunning hsvc
  by_cases hlo : lo (s.memRead a) = 0x00#8
  · exact ⟨_, step_puts_end hrunning hsvc hlo, serviceFrame_refl s, rfl, (if_pos hlo).mpr ⟨rfl, rfl, rfl, rfl⟩⟩
  · exact ⟨_, step_puts_next hrunning hsvc hlo, serviceFrame_emitAll s [lo (s.memRead a)], rfl,
      (if_neg hlo).mpr ⟨rfl, rfl, rfl, emit_lastNL_iff s _⟩⟩

/-- Settles O36, by the low byte and then the high byte. -/
theorem putspMicroStep : Obligations.PutspMicroStep := by
  intro s a hrunning hsvc
  by_cases hlo : lo (s.memRead a) = 0x00#8
  · exact ⟨_, step_putsp_end hrunning hsvc hlo, serviceFrame_refl s, rfl, (if_pos hlo).mpr ⟨rfl, rfl, rfl, rfl⟩⟩
  by_cases hhi : hi (s.memRead a) = 0x00#8
  · exact ⟨_, step_putsp_half hrunning hsvc hlo hhi, serviceFrame_emitAll s [lo (s.memRead a)], rfl,
      (if_neg hlo).mpr ((if_pos hhi).mpr ⟨rfl, rfl, rfl, emit_lastNL_iff s _⟩)⟩
  · exact ⟨_, step_putsp_next hrunning hsvc hlo hhi, serviceFrame_emitAll s [lo (s.memRead a), hi (s.memRead a)],
      rfl, (if_neg hlo).mpr ((if_neg hhi).mpr
        ⟨rfl, s.emitAll_out [lo (s.memRead a), hi (s.memRead a)], rfl, emit_lastNL_iff (s.emit (lo (s.memRead a))) _⟩)⟩

end Sys2Proof.Machine
end

