-- ==== Sys2Proof/Proofs/Printing.lean ====
section
/-! PROOF. Whole runs of PUTS and PUTSP (R158 to R160, R165, R166). A run that reaches the terminator ends in one known
state, the string put out and flushed, which the induction on the string says outright. -/

namespace Sys2Proof.Machine

/-- PUTS or PUTSP done: the string is put out and flushed and the sequencer is idle again. -/
def State.printed (s : State) (bs : List Byte) : State :=
  (s.emitAll bs).flush.setSvc .idle

theorem emitAll_setSvc (s : State) (v : Svc) (bs : List Byte) :
    (s.setSvc v).emitAll bs = (s.emitAll bs).setSvc v := by
  rw [State.emitAll_eq, State.emitAll_eq]
  rfl

theorem emitAll_append (s : State) (bs cs : List Byte) : (s.emitAll bs).emitAll cs = s.emitAll (bs ++ cs) := by
  induction bs generalizing s with
  | nil => rfl
  | cons b bs ih => exact ih (s.emit b)

/-- Bytes put out by one micro-step and bytes put out by the later ones are one string. -/
theorem State.printed_after (s : State) (bs cs : List Byte) (v : Svc) :
    ((s.emitAll bs).setSvc v).printed cs = s.printed (bs ++ cs) := by
  rw [State.printed, emitAll_setSvc, emitAll_append]
  rfl

theorem printed_frame (s : State) (bs : List Byte) :
    ServiceFrame s (s.printed bs) ∧ (s.printed bs).pc = s.pc ∧ (s.printed bs).svc = .idle ∧
      (s.printed bs).out = s.out ++ bs ∧ (s.printed bs).unflushed = 0 :=
  ⟨serviceFrame_emitAll s bs, s.emitAll_pc bs, rfl, s.emitAll_out bs, rfl⟩

theorem add_ofNat_succ (a : Word) (i : Nat) : a + BitVec.ofNat 16 (i + 1) = a + 1 + BitVec.ofNat 16 i := by
  rw [Nat.add_comm, BitVec.ofNat_add, BitVec.add_assoc]
  rfl

/-! PUTS -/

/-- PUTS at `a` takes one micro-step a byte and one for the terminator, by induction on the string. -/
theorem run_puts {s : State} {a : Word} {bs : List Byte} (hrunning : s.status = .running) (hsvc : s.svc = .puts a)
    (hbytes : ∀ i (h : i < bs.length), lo (s.memRead (a + BitVec.ofNat 16 i)) = bs[i] ∧ bs[i] ≠ 0x00#8)
    (hend : lo (s.memRead (a + BitVec.ofNat 16 bs.length)) = 0x00#8) :
    Host.Core.run Sys2Proof.core (bs.length + 1) s = .next (s.printed bs) := by
  induction bs generalizing s a with
  | nil =>
    rw [List.length_nil, BitVec.add_zero] at hend
    exact run_succ 0 (step_puts_end hrunning hsvc hend)
  | cons b bs ih =>
    obtain ⟨hlo, hb⟩ := hbytes 0 (Nat.succ_pos _)
    rw [BitVec.add_zero] at hlo
    rw [List.getElem_cons_zero] at hlo hb
    have hnext := step_puts_next hrunning hsvc (hlo ▸ hb)
    rw [hlo] at hnext
    refine (run_succ _ hnext).trans
      ((ih (s := (s.emit b).setSvc (.puts (a + 1))) hrunning rfl ?_ ?_).trans
        (congrArg _ (s.printed_after [b] bs (.puts (a + 1)))))
    · intro i hi
      have := hbytes (i + 1) (Nat.succ_lt_succ hi)
      rwa [add_ofNat_succ] at this
    · rwa [List.length_cons, add_ofNat_succ] at hend

/-- Settles O39: the TRAP step, then the run of PUTS from the address in R0. -/
theorem putsPrintsAZeroTerminatedString : Obligations.PutsPrintsAZeroTerminatedString := by
  intro s bs hready hword hbytes hend
  have hdecode : decode (s.memRead s.pc) = .ok .puts := by rw [hword]; decide
  have hstart : step s = .next (s.advance.setSvc (.puts (s.reg 0))) := step_of_decode hready hdecode
  refine ⟨_, ?_, printed_frame (s.advance.setSvc (.puts (s.reg 0))) bs⟩
  rw [run_succ _ hstart]
  exact run_puts hready.1 rfl hbytes hend

/-- Settles O41, by induction on the number of steps. -/
theorem putsWithoutTerminatorNeverEnds : Obligations.PutsWithoutTerminatorNeverEnds := by
  intro s a hrunning hsvc hbytes n
  induction n generalizing s a with
  | zero => exact ⟨s, rfl, hrunning, by rw [hsvc, BitVec.add_zero], rfl⟩
  | succ n ih =>
    obtain ⟨t, hrun, hstatus, hsvc', hlength⟩ :=
      ih ((s.emit (lo (s.memRead a))).setSvc (.puts (a + 1))) (a + 1) hrunning rfl hbytes
    refine ⟨t, (run_succ n (step_puts_next hrunning hsvc (hbytes a))).trans hrun, hstatus, ?_, ?_⟩
    · rw [hsvc', add_ofNat_succ]
    · rw [hlength, State.setSvc_out, State.emit_out, List.length_append, List.length_singleton]
      omega

/-! PUTSP -/

/-- Two bytes on is one word on (R165). -/
theorem packedByte_add_two (s : State) (a : Word) (i : Nat) :
    packedByte s a (i + 2) = packedByte s (a + 1) i := by
  simp only [packedByte, Nat.add_div_right i (Nat.succ_pos 1), Nat.add_mod_right, add_ofNat_succ]

theorem packedByte_zero (s : State) (a : Word) : packedByte s a 0 = lo (s.memRead a) := by
  simp [packedByte]

theorem packedByte_one (s : State) (a : Word) : packedByte s a 1 = hi (s.memRead a) := by
  simp [packedByte]

/-- PUTSP at `a` takes one micro-step a word, the terminator's among them, by induction on the string by words. -/
theorem run_putsp {s : State} {a : Word} {bs : List Byte} (hrunning : s.status = .running) (hsvc : s.svc = .putsp a)
    (hbytes : ∀ i (h : i < bs.length), packedByte s a i = bs[i] ∧ bs[i] ≠ 0x00#8)
    (hend : packedByte s a bs.length = 0x00#8) :
    Host.Core.run Sys2Proof.core (bs.length / 2 + 1) s = .next (s.printed bs) := by
  induction bs using List.twoStepInduction generalizing s a with
  | nil =>
    rw [List.length_nil, packedByte_zero] at hend
    exact run_succ 0 (step_putsp_end hrunning hsvc hend)
  | singleton b =>
    obtain ⟨hlo, hb⟩ := hbytes 0 (Nat.succ_pos _)
    rw [packedByte_zero, List.getElem_cons_zero] at hlo
    rw [List.length_singleton, packedByte_one] at hend
    have hnext := step_putsp_half hrunning hsvc (hlo ▸ hb) hend
    rw [hlo] at hnext
    have hlength : [b].length / 2 = 0 := Nat.div_eq_of_lt (Nat.lt_succ_self 1)
    rw [hlength]
    exact run_succ 0 hnext
  | cons_cons b c bs ih _ =>
    obtain ⟨hlo, hb⟩ := hbytes 0 (Nat.succ_pos _)
    obtain ⟨hhi, hc⟩ := hbytes 1 (Nat.succ_lt_succ (Nat.succ_pos _))
    rw [packedByte_zero, List.getElem_cons_zero] at hlo
    rw [packedByte_one, List.getElem_cons_succ, List.getElem_cons_zero] at hhi
    have hnext := step_putsp_next hrunning hsvc (hlo ▸ hb) (hhi ▸ hc)
    rw [hlo, hhi] at hnext
    have hlength : (b :: c :: bs).length / 2 = bs.length / 2 + 1 := Nat.add_div_right _ (Nat.succ_pos 1)
    rw [hlength]
    refine (run_succ _ hnext).trans
      ((ih (s := ((s.emit b).emit c).setSvc (.putsp (a + 1))) hrunning rfl ?_ ?_).trans
        (congrArg _ (s.printed_after [b, c] bs (.putsp (a + 1)))))
    · intro i hi
      have := hbytes (i + 2) (Nat.succ_lt_succ (Nat.succ_lt_succ hi))
      rwa [packedByte_add_two] at this
    · exact (packedByte_add_two s a bs.length).symm.trans hend

/-- Settles O40: the TRAP step, then the run of PUTSP from the address in R0. -/
theorem putspPrintsAPackedString : Obligations.PutspPrintsAPackedString := by
  intro s bs hready hword hbytes hend
  have hdecode : decode (s.memRead s.pc) = .ok .putsp := by rw [hword]; decide
  have hstart : step s = .next (s.advance.setSvc (.putsp (s.reg 0))) := step_of_decode hready hdecode
  refine ⟨_, ?_, printed_frame (s.advance.setSvc (.putsp (s.reg 0))) bs⟩
  rw [run_succ _ hstart]
  exact run_putsp hready.1 rfl hbytes hend

end Sys2Proof.Machine
end

