-- ==== Sys2Proof/Proofs/MachineRules.lean ====
section
/-! PROOF. Rules of the whole machine read off the cases of a step: what a step may write (R22, R25, R28, R47), and
what it does not read (R108, R151, R154). -/

namespace Sys2Proof.Machine

/-! Registers (R22) -/

theorem startService_reg (s : State) (x : Service) (r : Reg) : (s.startService x).reg r = s.reg r := by
  obtain ⟨-, hx, -⟩ := startService_frame s x
  exact congrArg (·[r]) hx

theorem Effect.reg {i : Instr} {s t : State} (h : Effect i s t) (r : Reg) :
    writesReg i = some r ∨ t.reg r = s.reg r := by
  cases h with
  | @result dr v hcc hreg =>
    by_cases hr : r = dr
    · exact .inl (hr ▸ hreg)
    · exact .inr ((s.writeResult_reg dr v r).trans (if_neg hr))
  | @link q v p hcc hreg =>
    by_cases hr : r = q
    · exact .inl (hr ▸ hreg)
    · exact .inr ((s.setReg_reg q v r).trans (if_neg hr))
  | @service x => exact .inr (startService_reg s x r)
  | _ => exact .inr rfl

/-- Settles O46: of the cases of a step only the listed ones write a register. -/
theorem onlyTheListedWritersChangeARegister : Obligations.OnlyTheListedWritersChangeARegister := by
  intro s t r h hne
  cases stepCase_of_step h with
  | reject => exact absurd rfl hne
  | instr hsvc hdecode heffect => exact .inl ⟨hsvc, _, hdecode, (heffect.reg r).resolve_right hne⟩
  | getc hsvc =>
    refine .inr ⟨.inl hsvc, by_contra fun hr => hne ?_⟩
    exact (State.finishGetc_reg _ _ _ r).trans (if_neg hr)
  | inp hsvc =>
    refine .inr ⟨.inr hsvc, by_contra fun hr => hne ?_⟩
    exact (State.finishIn_reg _ _ _ _ r).trans (if_neg hr)
  | @print bs => exact absurd (s.emitAll_reg bs r) hne
  | @printEnd bs => exact absurd (s.emitAll_reg bs r) hne

/-! The condition code (R28, R29, R101) -/

theorem startService_cc (s : State) (x : Service) : (s.startService x).cc = s.cc := by
  obtain ⟨-, -, -, hcc, -⟩ := startService_frame s x
  exact hcc

theorem Effect.cc_of_setsCc {i : Instr} {s t : State} {dr : Reg} (h : Effect i s t) (hi : setsCc i = some dr) :
    SignFlag (t.reg dr) t.cc := by
  cases h with
  | @result dr' v hcc =>
    rw [hcc] at hi
    cases hi
    rw [State.writeResult_reg, if_pos rfl]
    exact signFlag_ccOf v
  | link hcc | store hcc | jump hcc | service hcc | error hcc => rw [hcc] at hi; cases hi

theorem Effect.cc_of_setsCc_none {i : Instr} {s t : State} (h : Effect i s t) (hi : setsCc i = none) :
    t.cc = s.cc := by
  cases h with
  | result hcc => rw [hcc] at hi; cases hi
  | @service x => exact startService_cc s x
  | _ => rfl

/-- Settles O47: an effect sets the flag of DR where `setsCc` says so, and no other case of a step writes `cc`. -/
theorem conditionCodeStateMachine : Obligations.ConditionCodeStateMachine := by
  refine ⟨rfl, fun s t h => ⟨fun hsvc i dr hdecode hi => ?_, fun hother => ?_⟩⟩
  · have hexec := (step_of_decode ⟨step_running h, hsvc⟩ hdecode).symm.trans h
    exact (effect_of_exec hexec).cc_of_setsCc hi
  · cases stepCase_of_step h with
    | reject => rfl
    | instr hsvc hdecode heffect =>
      exact heffect.cc_of_setsCc_none (hother.resolve_left (not_not.mpr hsvc) _ hdecode)
    | getc => rfl
    | inp =>
      obtain ⟨-, -, hcc, -⟩ := State.finishIn_frame { s with input := _ } Config.readHighByte Config.inEchoSuffix _
      exact hcc
    | @print bs => exact s.emitAll_cc bs
    | @printEnd bs => exact s.emitAll_cc bs

/-! Memory (R47) -/

theorem startService_memRead (s : State) (x : Service) (a : Word) : (s.startService x).memRead a = s.memRead a :=
  congrArg (Memory.read · a) (startService_mem s x)

theorem Effect.memRead {i : Instr} {s t : State} (h : Effect i s t) (a : Word) :
    storesTo s i = some (a, t.memRead a) ∨ t.memRead a = s.memRead a := by
  cases h with
  | @store ea v hcc hstores =>
    rw [State.memWrite_memRead]
    by_cases ha : a = ea
    · exact .inl (by rw [if_pos ha, ha, hstores])
    · exact .inr (if_neg ha)
  | @service x => exact .inr (startService_memRead s x a)
  | _ => exact .inr rfl

/-- Settles O48: of the cases of a step only a store writes memory. -/
theorem onlyStoresChangeMemory : Obligations.OnlyStoresChangeMemory := by
  intro s t a h hne
  cases stepCase_of_step h with
  | reject => exact absurd rfl hne
  | instr hsvc hdecode heffect => exact ⟨hsvc, _, hdecode, (heffect.memRead a).resolve_right hne⟩
  | getc => exact absurd rfl hne
  | inp => exact absurd (congrArg (Memory.read · a) (State.finishIn_frame _ _ _ _).1) hne
  | @print bs => exact absurd (s.emitAll_memRead bs a) hne
  | @printEnd bs => exact absurd (s.emitAll_memRead bs a) hne

/-! The program counter (R25) -/

theorem startService_pc (s : State) (x : Service) : (s.startService x).pc = s.pc := by
  obtain ⟨-, -, hpc, -⟩ := startService_frame s x
  exact hpc

/-- A micro-step fetches nothing and keeps `pc` (R154). -/
theorem StepCase.pc_of_service {s t : State} (h : StepCase s t) (hservice : s.svc ≠ .idle) : t.pc = s.pc := by
  cases h with
  | reject hsvc => exact absurd hsvc hservice
  | instr hsvc => exact absurd hsvc hservice
  | getc => rfl
  | inp =>
    obtain ⟨-, hpc, -⟩ := State.finishIn_frame { s with input := _ } Config.readHighByte Config.inEchoSuffix _
    exact hpc
  | @print bs => exact s.emitAll_pc bs
  | @printEnd bs => exact s.emitAll_pc bs

/-- Settles O29, instruction by instruction, the errors set aside. -/
theorem programCounterAfterEveryStep : Obligations.ProgramCounterAfterEveryStep := by
  intro s t h hsafe
  refine ⟨(stepCase_of_step h).pc_of_service, fun hsvc i hdecode => ?_⟩
  have hexec := (step_of_decode ⟨step_running h, hsvc⟩ hdecode).symm.trans h
  cases i with
  | br nzp off9 =>
    obtain ⟨-, rfl⟩ | ⟨-, rfl⟩ := exec_br_cases hexec
    · exact absurd ⟨_, _, _, rfl⟩ hsafe
    · by_cases htaken : s.cc.enc &&& nzp = 0b000#3 <;> simp [branchTaken, htaken, State.pcRel, sext]
  | jsrr base =>
    cases hexec
    obtain ⟨-, -, -, hpc, -⟩ := registerOnly_linkAndJump s.advance Config.jsrrLinkOrder base
    exact hpc
  | trap v =>
    obtain ⟨-, rfl⟩ | ⟨x, -, rfl⟩ := exec_trap_cases hexec
    · exact absurd ⟨_, _, _, rfl⟩ hsafe
    · exact startService_pc s.advance x
  | rti low12 => cases hexec; exact absurd ⟨_, _, _, rfl⟩ hsafe
  | reserved low12 => cases hexec; exact absurd ⟨_, _, _, rfl⟩ hsafe
  | in_ => cases hexec; exact startService_pc s.advance .inp
  | _ => cases hexec; rfl

/-- IN's completion does not look at `pc`. -/
theorem finishIn_setPc (s : State) (p : Word) (mode : ReadHighByte) (suffix : List Byte) (c : Byte) :
    (s.setPc p).finishIn mode suffix c = (s.finishIn mode suffix c).setPc p := by
  simp only [State.finishIn, State.emitAll_eq]
  rfl

/-- Settles O42, micro-step by micro-step. -/
theorem serviceMicroStepsFetchNothing : Obligations.ServiceMicroStepsFetchNothing := by
  intro s t p hservice h
  change step (s.setPc p) = .next (t.setPc p)
  obtain ⟨hrunning, ⟨hsvc, -⟩ | ⟨hsvc, c, rest, hinput, rfl⟩ | ⟨hsvc, c, rest, hinput, rfl⟩ | ⟨a, hsvc, hmicro⟩ |
    ⟨a, hsvc, hmicro⟩⟩ := step_inv h
  · exact absurd hsvc hservice
  · exact step_waitGetc (s := s.setPc p) hrunning hsvc hinput
  · rw [← finishIn_setPc]
    exact step_waitIn (s := s.setPc p) hrunning hsvc hinput
  · obtain ⟨hlo, rfl⟩ | ⟨hlo, rfl⟩ := microPuts_cases hmicro
    · exact step_puts_end (s := s.setPc p) hrunning hsvc hlo
    · exact step_puts_next (s := s.setPc p) hrunning hsvc hlo
  · obtain ⟨hlo, rfl⟩ | ⟨hlo, hhi, rfl⟩ | ⟨hlo, hhi, rfl⟩ := microPutsp_cases hmicro
    · exact step_putsp_end (s := s.setPc p) hrunning hsvc hlo
    · exact step_putsp_half (s := s.setPc p) hrunning hsvc hlo hhi
    · exact step_putsp_next (s := s.setPc p) hrunning hsvc hlo hhi

end Sys2Proof.Machine
end

