-- ==== Sys2Proof/Proofs/ConsoleHistory.lean ====
section
/-! PROOF. A step reads neither what was put out before it nor the bytes supplied behind the one it takes (R108, R151).
Both statements come from one: a step from the same state with another console history does the same. -/

namespace Sys2Proof.Machine

/-- The same state with another earlier output, another count of unflushed bytes, and more bytes supplied. -/
def State.withHistory (s : State) (o : List Byte) (u : Nat) (more : List Byte) : State :=
  { s with out := o, unflushed := u, input := s.input ++ more }

/-- What `f` does in `s`, going to `t`, it does with any console history, putting out the same bytes. -/
def HistoryUnread (f : State → Host.Outcome State Fault Refusal) (s t : State) : Prop :=
  ∀ o u more, ∃ bs u', t.out = s.out ++ bs ∧ (u = s.unflushed → u' = t.unflushed) ∧
    f (s.withHistory o u more) = .next (t.withHistory (o ++ bs) u' more)

/-- Nothing put out and nothing flushed. -/
theorem historyUnread_of_silent {f : State → Host.Outcome State Fault Refusal} {s t : State} (hout : t.out = s.out)
    (hunflushed : t.unflushed = s.unflushed)
    (h : ∀ o u more, f (s.withHistory o u more) = .next (t.withHistory o u more)) : HistoryUnread f s t := by
  intro o u more
  refine ⟨[], u, by rw [hout, List.append_nil], fun hu => hu.trans hunflushed.symm, ?_⟩
  rw [List.append_nil]
  exact h o u more

/-- A string put out and flushed. -/
theorem historyUnread_of_flushed {f : State → Host.Outcome State Fault Refusal} {s t : State} {bs : List Byte}
    (hout : t.out = s.out ++ bs) (hunflushed : t.unflushed = 0)
    (h : ∀ o u more, f (s.withHistory o u more) = .next (t.withHistory (o ++ bs) 0 more)) : HistoryUnread f s t :=
  fun o u more => ⟨bs, 0, hout, fun _ => hunflushed.symm, h o u more⟩

/-- A flush and nothing put out. -/
theorem historyUnread_of_flush {f : State → Host.Outcome State Fault Refusal} {s t : State} (hout : t.out = s.out)
    (hunflushed : t.unflushed = 0)
    (h : ∀ o u more, f (s.withHistory o u more) = .next (t.withHistory o 0 more)) : HistoryUnread f s t := by
  refine historyUnread_of_flushed (bs := []) (by rw [hout, List.append_nil]) hunflushed fun o u more => ?_
  rw [List.append_nil]
  exact h o u more

theorem emitAll_withHistory (s : State) (o : List Byte) (u : Nat) (more bs : List Byte) :
    (s.withHistory o u more).emitAll bs = (s.emitAll bs).withHistory (o ++ bs) (u + bs.length) more := by
  simp only [State.emitAll_eq]
  rfl

theorem finishIn_withHistory (s : State) (o : List Byte) (u : Nat) (more : List Byte) (mode : ReadHighByte)
    (suffix : List Byte) (c : Byte) :
    (s.withHistory o u more).finishIn mode suffix c =
      (s.finishIn mode suffix c).withHistory (o ++ c :: suffix) 0 more :=
  congrArg (fun e => ((e.setReg 0 (readInto mode (s.reg 0) c)).flush).setSvc .idle)
    (emitAll_withHistory s o u more (c :: suffix))

theorem startService_historyUnread (s : State) (x : Service) :
    HistoryUnread (fun s => .next (s.startService x)) s (s.startService x) := by
  cases x with
  | getc => exact historyUnread_of_silent rfl rfl fun _ _ _ => rfl
  | out => exact historyUnread_of_flushed (bs := [lo (s.reg 0)]) rfl rfl fun _ _ _ => rfl
  | puts => exact historyUnread_of_silent rfl rfl fun _ _ _ => rfl
  | inp =>
    obtain ⟨hout, -, -⟩ := emits_startIn s Config.inPrompt
    obtain ⟨-, -, -, -, -, -, hunflushed, -⟩ := s.startIn_frame Config.inPrompt
    refine historyUnread_of_flushed hout hunflushed fun o u more => ?_
    change Host.Outcome.next (State.startIn _ _) = .next (State.withHistory (State.startIn _ _) _ _ _)
    rw [State.startIn_eq, State.startIn_eq, emitAll_withHistory]
    rfl
  | putsp => exact historyUnread_of_silent rfl rfl fun _ _ _ => rfl
  | halt => exact historyUnread_of_flush rfl rfl fun _ _ _ => rfl

theorem exec_historyUnread {i : Instr} {s t : State} (h : exec i s = .next t) : HistoryUnread (exec i) s t := by
  cases i with
  | br nzp off9 =>
    obtain ⟨rfl, rfl⟩ | ⟨hnzp, rfl⟩ := exec_br_cases h
    · exact historyUnread_of_silent rfl rfl fun _ _ _ => exec_br_zero off9 _
    · exact historyUnread_of_silent rfl rfl fun _ _ _ => exec_br hnzp off9 _
  | trap v =>
    obtain ⟨hv, rfl⟩ | ⟨x, hv, rfl⟩ := exec_trap_cases h
    · exact historyUnread_of_silent rfl rfl fun _ _ _ => exec_trap_unknown hv _
    · rw [show exec (.trap v) = fun s => .next (s.startService x) from funext (exec_trap_service hv)]
      exact startService_historyUnread s x
  | getc => cases h; exact startService_historyUnread s .getc
  | out => cases h; exact startService_historyUnread s .out
  | puts => cases h; exact startService_historyUnread s .puts
  | in_ => cases h; exact startService_historyUnread s .inp
  | putsp => cases h; exact startService_historyUnread s .putsp
  | halt => cases h; exact startService_historyUnread s .halt
  | _ => cases h; exact historyUnread_of_silent rfl rfl fun _ _ _ => rfl

theorem step_historyUnread {s t : State} (h : step s = .next t) : HistoryUnread step s t := by
  obtain ⟨hrunning, ⟨hsvc, ⟨k, hdecode, rfl⟩ | ⟨i, hdecode, hexec⟩⟩ | ⟨hsvc, c, rest, hinput, rfl⟩ |
    ⟨hsvc, c, rest, hinput, rfl⟩ | ⟨a, hsvc, hmicro⟩ | ⟨a, hsvc, hmicro⟩⟩ := step_inv h
  · exact historyUnread_of_silent rfl rfl fun o u more =>
      step_of_decode_error (s := s.withHistory o u more) ⟨hrunning, hsvc⟩ hdecode
  · intro o u more
    obtain ⟨bs, u', hout, hunflushed, hexec'⟩ := exec_historyUnread hexec o u more
    exact ⟨bs, u', hout, hunflushed,
      (step_of_decode (s := s.withHistory o u more) ⟨hrunning, hsvc⟩ hdecode).trans hexec'⟩
  · exact historyUnread_of_silent rfl rfl fun o u more =>
      step_waitGetc (s := s.withHistory o u more) hrunning hsvc (congrArg (· ++ more) hinput)
  · obtain ⟨hout, -, -⟩ := emits_finishIn { s with input := rest } Config.readHighByte Config.inEchoSuffix c
    exact historyUnread_of_flushed hout rfl fun o u more =>
      (step_waitIn (s := s.withHistory o u more) hrunning hsvc (congrArg (· ++ more) hinput)).trans
        (congrArg _ (finishIn_withHistory { s with input := rest } o u more _ _ c))
  · obtain ⟨hlo, rfl⟩ | ⟨hlo, rfl⟩ := microPuts_cases hmicro
    · exact historyUnread_of_flush rfl rfl fun o u more =>
        step_puts_end (s := s.withHistory o u more) hrunning hsvc hlo
    · exact fun o u more => ⟨[lo (s.memRead a)], u + 1, rfl, congrArg (· + 1),
        step_puts_next (s := s.withHistory o u more) hrunning hsvc hlo⟩
  · obtain ⟨hlo, rfl⟩ | ⟨hlo, hhi, rfl⟩ | ⟨hlo, hhi, rfl⟩ := microPutsp_cases hmicro
    · exact historyUnread_of_flush rfl rfl fun o u more =>
        step_putsp_end (s := s.withHistory o u more) hrunning hsvc hlo
    · exact historyUnread_of_flushed rfl rfl fun o u more =>
        step_putsp_half (s := s.withHistory o u more) hrunning hsvc hlo hhi
    · exact fun o u more => ⟨[lo (s.memRead a), hi (s.memRead a)], u + 2, List.append_assoc _ _ _, congrArg (· + 2),
        (step_putsp_next (s := s.withHistory o u more) hrunning hsvc hlo hhi).trans
          (congrArg (fun e : State => Host.Outcome.next (e.setSvc (.putsp (a + 1))))
            (emitAll_withHistory s o u more [lo (s.memRead a), hi (s.memRead a)]))⟩

/-- Settles O49: another earlier output, no further input. -/
theorem consoleOutputIsAppendOnlyAndUnread : Obligations.ConsoleOutputIsAppendOnlyAndUnread := by
  intro s t o u h
  obtain ⟨bs, u', hout, -, hstep⟩ := step_historyUnread h o u []
  simp only [State.withHistory, List.append_nil] at hstep
  exact ⟨bs, _, hout, hstep, rfl, rfl⟩

/-- Settles O50: the same earlier output, further input. -/
theorem laterInputDoesNotChangeAStep : Obligations.LaterInputDoesNotChangeAStep := by
  intro s t bs h
  obtain ⟨cs, u', hout, hunflushed, hstep⟩ := step_historyUnread h s.out s.unflushed bs
  rw [← hout, hunflushed rfl] at hstep
  exact hstep

end Sys2Proof.Machine
end

