-- ==== Sys2Proof/Proofs/CanonicalMemory.lean ====
section
/-! PROOF. The canonical form of memory is one: its lists are determined by what they read as (log 1). -/

namespace Sys2Proof.Machine

/-- Below its first listed address a canonical memory reads 0x0000. -/
theorem Memory.read_eq_zero_of_lt {m : Memory} {n : Nat} {a : Word} (h : Memory.wfFrom n m = true) (ha : a.toNat < n) :
    Memory.read m a = 0x0000#16 := by
  induction m generalizing n with
  | nil => rfl
  | cons e m ih =>
    obtain ⟨k, u⟩ := e
    obtain ⟨hn, -, -, hm⟩ := Memory.wfFrom_cons.1 h
    rw [Memory.read, if_neg (by omega)]
    exact ih hm (by omega)

/-- At its first listed address it does not. -/
theorem Memory.read_head {m : Memory} {n k : Nat} {u : Word} (h : Memory.wfFrom n ((k, u) :: m) = true) :
    Memory.read ((k, u) :: m) (BitVec.ofNat 16 k) = u := by
  obtain ⟨-, hk, -, -⟩ := Memory.wfFrom_cons.1 h
  rw [Memory.read, if_pos (by rw [BitVec.toNat_ofNat]; omega)]

/-- So of two canonical memories that read alike neither lists an address before the other does. -/
theorem Memory.not_wfFrom_succ_of_read_alike {m m' : Memory} {n k : Nat} {u : Word}
    (h : Memory.wfFrom n ((k, u) :: m) = true)
    (halike : ∀ a, Memory.read ((k, u) :: m) a = Memory.read m' a) : ¬ Memory.wfFrom (k + 1) m' = true := by
  intro h'
  obtain ⟨-, hk, hu, -⟩ := Memory.wfFrom_cons.1 h
  have hhead := halike (BitVec.ofNat 16 k)
  rw [Memory.read_head h, Memory.read_eq_zero_of_lt h' (by rw [BitVec.toNat_ofNat]; omega)] at hhead
  exact hu hhead

theorem Memory.eq_of_read_alike {m m' : Memory} {n : Nat} (h : Memory.wfFrom n m = true)
    (h' : Memory.wfFrom n m' = true) (halike : ∀ a, Memory.read m a = Memory.read m' a) : m = m' := by
  induction m generalizing n m' with
  | nil =>
    cases m' with
    | nil => rfl
    | cons e' m' => exact absurd rfl (Memory.not_wfFrom_succ_of_read_alike h' fun a => (halike a).symm)
  | cons e m ih =>
    obtain ⟨k, u⟩ := e
    cases m' with
    | nil => exact absurd rfl (Memory.not_wfFrom_succ_of_read_alike h halike)
    | cons e' m' =>
      obtain ⟨k', u'⟩ := e'
      obtain ⟨-, hk, hu, hm⟩ := Memory.wfFrom_cons.1 h
      obtain ⟨-, hk', hu', hm'⟩ := Memory.wfFrom_cons.1 h'
      have hle : k' ≤ k := by
        by_contra hlt
        exact Memory.not_wfFrom_succ_of_read_alike h halike (Memory.wfFrom_cons.2 ⟨by omega, hk', hu', hm'⟩)
      have hge : k ≤ k' := by
        by_contra hlt
        exact Memory.not_wfFrom_succ_of_read_alike h' (fun a => (halike a).symm)
          (Memory.wfFrom_cons.2 ⟨by omega, hk, hu, hm⟩)
      obtain rfl : k = k' := Nat.le_antisymm hge hle
      have hhead := halike (BitVec.ofNat 16 k)
      rw [Memory.read_head h, Memory.read_head h'] at hhead
      rw [hhead, ih hm hm' fun a => ?_]
      by_cases ha : k = a.toNat
      · rw [Memory.read_eq_zero_of_lt hm (by omega), Memory.read_eq_zero_of_lt hm' (by omega)]
      · have htail := halike a
        rwa [Memory.read, Memory.read, if_neg ha, if_neg ha] at htail

/-- Settles O21, by induction on the two lists side by side. -/
theorem canonicalMemoriesThatReadAlikeAreEqual : Obligations.CanonicalMemoriesThatReadAlikeAreEqual :=
  fun _ _ => Memory.eq_of_read_alike

end Sys2Proof.Machine
end

