-- ==== Sys2Proof/Proofs/Images.lean ====
section
/-! PROOF. The image loader (R205 to R208), and what reset leaves and the host reports (R36, R182, R184). -/

namespace Sys2Proof.Machine

/-! The payload's words (R207) -/

/-- Two bytes make a word, the high one first. -/
theorem toNat_word_of_bytes (h l : Byte) : (h ++ l : Word).toNat = h.toNat * 256 + l.toNat :=
  toNat_append_eq_add h l

theorem wordsOfBytes_cons_cons {h l : Byte} {rest : List Byte} {ws : List Word}
    (hwords : wordsOfBytes (h :: l :: rest) = some ws) :
    ∃ vs, wordsOfBytes rest = some vs ∧ ws = (h ++ l : Word) :: vs := by
  obtain ⟨vs, hvs, rfl⟩ := Option.map_eq_some_iff.mp hwords
  exact ⟨vs, hvs, rfl⟩

theorem length_of_wordsOfBytes {bytes : List Byte} {ws : List Word} (h : wordsOfBytes bytes = some ws) :
    bytes.length = 2 * ws.length := by
  induction bytes using List.twoStepInduction generalizing ws with
  | nil => cases h; rfl
  | singleton b => cases h
  | cons_cons hb lb rest ih _ =>
    obtain ⟨vs, hvs, rfl⟩ := wordsOfBytes_cons_cons h
    have := ih hvs
    simp only [List.length_cons]
    omega

theorem exists_wordsOfBytes {bytes : List Byte} (h : bytes.length % 2 = 0) : ∃ ws, wordsOfBytes bytes = some ws := by
  induction bytes using List.twoStepInduction with
  | nil => exact ⟨[], rfl⟩
  | singleton b => cases h
  | cons_cons hb lb rest ih _ =>
    rw [List.length_cons, List.length_cons] at h
    obtain ⟨ws, hws⟩ := ih (by omega)
    exact ⟨(hb ++ lb : Word) :: ws, by rw [wordsOfBytes, hws]; rfl⟩

/-- Word `i` of the payload is its bytes `2 * i` and `2 * i + 1`. -/
theorem getD_of_wordsOfBytes {bytes : List Byte} {ws : List Word} (h : wordsOfBytes bytes = some ws) (i : Nat) :
    (ws.getD i 0).toNat = (bytes.getD (2 * i) 0).toNat * 256 + (bytes.getD (2 * i + 1) 0).toNat := by
  induction bytes using List.twoStepInduction generalizing ws i with
  | nil => cases h; rw [List.getD_nil, List.getD_nil]; rfl
  | singleton b => cases h
  | cons_cons hb lb rest ih _ =>
    obtain ⟨vs, hvs, rfl⟩ := wordsOfBytes_cons_cons h
    cases i with
    | zero => exact toNat_word_of_bytes hb lb
    | succ i => exact ih hvs i

/-! The payload in memory (R207) -/

/-- A block that ends before address 65536 is read back word by word, and every other address reads as before. -/
theorem Memory.read_writeBlock (m : Memory) (a b : Word) (ws : List Word) (hfits : a.toNat + ws.length ≤ 65536) :
    Memory.read (Memory.writeBlock m a ws) b =
      if a.toNat ≤ b.toNat ∧ b.toNat < a.toNat + ws.length then ws.getD (b.toNat - a.toNat) 0
      else Memory.read m b := by
  induction ws generalizing m a with
  | nil => rw [if_neg (by simp)]; rfl
  | cons w ws ih =>
    have hsucc : (a + 1).toNat = (a.toNat + 1) % 65536 := BitVec.toNat_add a 1
    rw [List.length_cons] at hfits ⊢
    rw [Memory.writeBlock, ih _ _ (by omega), Memory.read_write]
    by_cases hba : b = a
    · rw [hba, if_neg (by omega), if_pos rfl, if_pos (by omega), Nat.sub_self]
      rfl
    · have hne : b.toNat ≠ a.toNat := fun h => hba (BitVec.eq_of_toNat_eq h)
      rw [if_neg hba]
      by_cases hin : a.toNat ≤ b.toNat ∧ b.toNat < a.toNat + (ws.length + 1)
      · obtain ⟨i, hi⟩ : ∃ i, b.toNat = a.toNat + (i + 1) := ⟨b.toNat - a.toNat - 1, by omega⟩
        have hi' : b.toNat - (a + 1).toNat = i := by omega
        rw [if_pos hin, if_pos (by omega), hi', hi, Nat.add_sub_cancel_left]
        rfl
      · rw [if_neg hin, if_neg (by omega)]

/-! The statements -/

/-- Settles O55, value by value. -/
theorem resetLeavesTheStatedValues : Obligations.ResetLeavesTheStatedValues :=
  ⟨by decide, rfl, fun _ => rfl, rfl, rfl, rfl, rfl⟩

/-- Settles O56: `pc` and the payload from the bytes of the image, the rest from reset. -/
theorem acceptedImageLeavesTheStatedState : Obligations.AcceptedImageLeavesTheStatedState := by
  intro img s h
  obtain ⟨hb, lb, rest, w, ws, rfl, hwords, hfits, rfl⟩ := loadImage_eq_ok h
  have hlength : (hb :: lb :: rest).length / 2 - 1 = (w :: ws).length := by
    have := length_of_wordsOfBytes hwords
    simp only [List.length_cons] at this ⊢
    omega
  refine ⟨toNat_word_of_bytes hb lb, fun a => ?_, resetLeavesTheStatedValues.1, rfl, rfl, rfl, rfl, rfl⟩
  change (Memory.read (Memory.writeBlock [] (hb ++ lb) (w :: ws)) a).toNat = _
  rw [hlength, Memory.read_writeBlock _ _ _ _ hfits]
  split
  · exact getD_of_wordsOfBytes hwords _
  · rfl

theorem loadImage_of_fits (hb lb : Byte) {rest : List Byte} {w : Word} {ws : List Word}
    (hwords : wordsOfBytes rest = some (w :: ws)) (hfits : (hb ++ lb : Word).toNat + (ws.length + 1) ≤ 65536) :
    loadImage (hb :: lb :: rest) =
      .ok { State.reset with pc := hb ++ lb, mem := Memory.writeBlock [] (hb ++ lb) (w :: ws) } := by
  simp only [loadImage, hwords]
  exact if_pos hfits

/-- Settles O57: even length gives whole words, and the loader checks that there is one and that all fit. -/
theorem imagesAcceptedExactly : Obligations.ImagesAcceptedExactly := by
  intro img
  refine ⟨⟨?_, ?_⟩, fun e _ => by cases e <;> rfl⟩
  · rintro ⟨s, h⟩
    obtain ⟨hb, lb, rest, w, ws, rfl, hwords, hfits, -⟩ := loadImage_eq_ok h
    have hlength := length_of_wordsOfBytes hwords
    rw [toNat_word_of_bytes] at hfits
    simp only [List.length_cons, List.getD_cons_zero, List.getD_cons_succ] at hlength ⊢
    omega
  · rintro ⟨heven, hpayload, hfits⟩
    obtain _ | ⟨hb, _ | ⟨lb, rest⟩⟩ := img
    · simp at hpayload
    · simp at hpayload
    simp only [List.length_cons, List.getD_cons_zero, List.getD_cons_succ] at heven hpayload hfits
    obtain ⟨ws, hwords⟩ := exists_wordsOfBytes (bytes := rest) (by omega)
    have hlength := length_of_wordsOfBytes hwords
    obtain _ | ⟨w, ws⟩ := ws
    · rw [List.length_nil] at hlength
      omega
    · refine ⟨_, loadImage_of_fits hb lb hwords ?_⟩
      rw [toNat_word_of_bytes]
      rw [List.length_cons] at hlength
      omega

/-- Settles O45, status by status. -/
theorem exitAndErrorCodes : Obligations.ExitAndErrorCodes := by
  refine ⟨fun st => ?_, fun st => ?_, fun st => ?_, fun e => by cases e <;> rfl, rfl, rfl, rfl, rfl, rfl⟩ <;>
    cases st <;> simp [Status.exitCode]

/-- Settles O1: twelve closed decodings. -/
theorem writtenOutWordsDecode : Obligations.WrittenOutWordsDecode := by
  unfold Obligations.WrittenOutWordsDecode
  decide

end Sys2Proof.Machine
end
